-- ==== Sys2Proof/Word.lean ====
section
/-! DEFINITION. Bytes, 32-bit words, host addresses and byte buffers (00_scope.md R6, R11). -/

namespace Sys2Proof

/-- A byte, 0..255 (R11). -/
abbrev Byte := BitVec 8

/-- A 32-bit register value or PRNG word (R6, R21). -/
abbrev Word := BitVec 32

/-- A host-memory address: AW = 64 bits (R6). -/
abbrev Addr := BitVec 64

/-- A byte buffer in index order, byte 0 first (R11). -/
abbrev Buf := List Byte

end Sys2Proof
end

