-- ==== Sys2Proof/Config.lean ====
section
/-! DEFINITION. The configuration record of 00_scope.md R6 and the fixed constants of R3 and R4.
The record's parts are OPEN in the spec, so the machine's own record has no body that a proof could see. -/

namespace Sys2Proof

/-- `L = kColumnLaneCount = 8` (R3). -/
def laneCount : Nat := 8

/-- `K = kColumnSumCount = 3` (R3). -/
def columnSumCount : Nat := 3

/-- `kPairAddRate = 16` (R3). -/
def pairAddRate : Nat := 16

/-- `POLY = 0x11B`, the field polynomial (R4). UNVERIFIED: the literal is unaudited (U9), log 17. -/
def POLY : Nat := 0x11B

/-- The end of the host address space, `2^AW` with AW = 64 (R6, R72). -/
def addressTop : Nat := 2 ^ 64

/-- The configuration record (R6). Nothing else varies between instances. -/
structure Config where
  /-- `CX(c)`, the source's `GetColumnValue` (R140). -/
  cx : Nat → Byte
  /-- `RX(r)`, the source's `GetRowValue` (R141); may be zero. -/
  rx : Word → Byte
  /-- `ROWOP(lane, r)`, the source's `GetRowOpcode`: a 6-bit value (R142). -/
  rowOp : Fin 8 → Word → BitVec 6
  /-- `PRNG(r, N, i)`: the word of the i-th call of `next()` after `seed(r, N)` (R146). -/
  prng : Word → Word → Nat → Word
  /-- `NMAX`: the largest input count the pointer table holds. -/
  nmax : Nat
  /-- `SMAX`: the largest symbol length the buffer memory holds. -/
  smax : Nat
  /-- `XACC_B`: the queue depth of each XOR accumulator (R161). -/
  xaccB : Nat
  deriving Inhabited

namespace Config

/-- The constraints R6 puts on the record, and no others. -/
structure Legal (cfg : Config) : Prop where
  cx_ne_zero : ∀ c, c < cfg.nmax → cfg.cx c ≠ 0
  nmax_pos : 1 ≤ cfg.nmax
  nmax_le : cfg.nmax ≤ 2 ^ 32 - 1
  smax_pos : 1 ≤ cfg.smax
  smax_le : cfg.smax ≤ 2 ^ 32 - 1
  xaccB_pos : 1 ≤ cfg.xaccB

/-- A capacity brought into 1 .. 2^32 - 1. -/
def clampCapacity (n : Nat) : Nat := max 1 (min n (2 ^ 32 - 1))

/-- The nearest record that meets `Legal`: a legal record is left as it is (Laws/Config.lean), so that a legal record ranges
over ALL records R6 allows and over no other. -/
def clamp (cfg : Config) : Config where
  cx c := if c < clampCapacity cfg.nmax ∧ cfg.cx c = 0 then 1 else cfg.cx c
  rx := cfg.rx
  rowOp := cfg.rowOp
  prng := cfg.prng
  nmax := clampCapacity cfg.nmax
  smax := clampCapacity cfg.smax
  xaccB := max 1 cfg.xaccB

/-- What the implementation chose: no body, so that nothing can be proved of its values (92 D11, D17, D20; log 1). -/
opaque given : Config

/-- The FREE VALUES: the k-th unspecified byte the machine produces (U5, U6). No body: a claim holds for every value (log 8). -/
opaque freeByte : Nat → Byte

end Config

/-- The configuration of the block, fixed for its life (R143, R302): any record that meets R6's constraints. -/
def config : Config := Config.given.clamp

end Sys2Proof
end

