-- ==== Sys2Proof/Machine/GF.lean ====
section
/-! DEFINITION. GF(256) on bytes (40_gf256.md R120 to R123). -/

namespace Sys2Proof.Machine

/-- Multiplication by x: shift left, and reduce by POLY when x^7 was present (the loop body of R121). -/
def gfDouble (a : Byte) : Byte :=
  if a.getLsbD 7 then (a <<< 1) ^^^ BitVec.ofNat 8 POLY else a <<< 1

/-- `n` rounds of the shift-and-reduce loop of R121 with the running product `p`. -/
def gfMulLoop : Nat → Byte → Byte → Byte → Byte
  | 0, p, _, _ => p
  | n + 1, p, a, b => gfMulLoop n (if b.getLsbD 0 then p ^^^ a else p) (gfDouble a) (b >>> 1)

/-- `gf_mul(a, b)` (R121). -/
def gfMul (a b : Byte) : Byte := gfMulLoop 8 0 a b

/-- `gf_add(a, b) = a ^ b` (R122). -/
def gfAdd (a b : Byte) : Byte := a ^^^ b

/-- `gf_sqr(c) = gf_mul(c, c)` (R123). -/
def gfSqr (c : Byte) : Byte := gfMul c c

end Sys2Proof.Machine
end

