-- ==== Sys2Proof/Machine/Buffers.lean ====
section
/-! DEFINITION. The buffer primitives buf_add, buf_muladd and buf_copy_zt (40_gf256.md R124 to R126). -/

namespace Sys2Proof.Machine

/-- `dst[i] <- f dst[i] src[i]` for i in 0..n; every other byte of `dst` stays (R124, R125). -/
def bufUpdate (f : Byte → Byte → Byte) : Buf → Buf → Nat → Buf
  | d :: ds, x :: xs, n + 1 => f d x :: bufUpdate f ds xs n
  | ds, _, _ => ds

/-- `buf_add(dst, src, n)` (R124). -/
def bufAdd (dst src : Buf) (n : Nat) : Buf := bufUpdate gfAdd dst src n

/-- `buf_muladd(dst, c, src, n)` (R125). -/
def bufMuladd (dst : Buf) (c : Byte) (src : Buf) (n : Nat) : Buf :=
  bufUpdate (fun d x => gfAdd d (gfMul c x)) dst src n

/-- `buf_copy_zt(dst, src, n, S)` (R126): n bytes of `src`, then zeros up to S. Every byte of dst is written, so what dst held is
no argument. -/
def bufCopyZt (src : Buf) (n S : Nat) : Buf := src.take n ++ List.replicate (S - n) 0

/-- S bytes of zero (43_init.md R187). -/
def zeroBuf (S : Nat) : Buf := List.replicate S 0

end Sys2Proof.Machine
end

