-- ==== Sys2Proof/Syntax.lean ====
section
/-! DEFINITION. The instructions (one constructor per row of opcode_table.json), the encoded items that carry them
(30_encoding.md R90) and the moves of the host (INDEX.md, 10_state.md R21 to R37). -/

namespace Sys2Proof

/-- What the engine can execute. The operands of the commands are in the ARG registers (R90, R94), those of ROWOP in the lane
the opcode was fetched for (R97), so that only the encoded values stand here. -/
inductive Instr where
  /-- `INIT`: set up the Window and build the lane sums (R180). -/
  | init
  /-- `ENCODE`: produce the recovery symbol of row `ARG_ROW` (R210). -/
  | encode
  /-- `FREE`: release the encoder (R240). -/
  | free
  /-- `ILLEGAL`: a CMD32 word that selects no command, with that word (R93, R244). -/
  | illegal (word : Word)
  /-- `ROWOP`: one row opcode, the six mixing flags of one lane (R97, R215). -/
  | rowop (op : BitVec 6)
  deriving DecidableEq, Repr

/-- An encoded item the engine decodes to an instruction (R90). The third format of R90, PTR64, is data of INIT. -/
inductive Item where
  /-- Format CMD32: the word the host writes to CMD. -/
  | cmd32 (word : Word)
  /-- Format ROWOP6: the value `ROWOP(lane, row)` returns. -/
  | rowop6 (op : BitVec 6)
  deriving DecidableEq, Repr

/-- The size of a host access to the block's window (R36). -/
inductive AccessSize where
  | byte
  | half
  | word
  | double
  deriving DecidableEq, Repr

/-- One move of the host. Offsets are byte offsets from the block's base address (R21). -/
inductive HostMove where
  /-- A write of `size` at `off`. Only a word write can store anything (R36); the other sizes carry no data here. -/
  | write (size : AccessSize) (off : Nat) (v : Word)
  /-- A read of `size` at `off` (R242, R70). -/
  | read (size : AccessSize) (off : Nat)
  /-- The host stores a byte to its own memory between commands (R76). -/
  | hmemStore (a : Addr) (b : Byte)
  /-- The host takes a byte of its memory away between commands ("or unmap it", R76). -/
  | hmemUnmap (a : Addr)
  /-- Reset of the block (R300). -/
  | reset
  deriving DecidableEq, Repr

end Sys2Proof
end

