-- ==== Sys2Proof/Machine/State.lean ====
section
/-! DEFINITION. The state of the block and of what its step reads, as plain data, and its value after reset
(10_state.md; INVENTORY.md lists every field with its rule). -/

namespace Sys2Proof.Machine

/-- Why the machine stops with a fault. -/
inductive Fault where
  /-- INIT or ENCODE reads the HMEM byte at `addr`, which the platform does not back with readable memory (20_memory.md R73, U2).
  Safe: the machine stops where the hardware's behaviour is undefined. -/
  | unreadable (addr : Nat)
  /-- ENCODE draws column `c`, for which WIN.PTR holds no entry. R26 gives WIN.PTR one entry per original, so no state that a run
  reaches raises it (log 21). Safe. -/
  | noPointer (c : Nat)
  deriving DecidableEq, Repr

/-- Why the machine refuses a step. -/
inductive Refusal where
  /-- An instruction with no meaning yet. No arm of this model raises it. Safe. -/
  | notModelled (mnemonic : String)
  /-- The pointer table or a region of an original would run past address 2^64: INIT or ENCODE is refused (R72, U3). Safe. -/
  | pastAddressSpace
  /-- A host access of a size or an alignment the block does not define (R36, U12). Safe. -/
  | undefinedAccess (size : AccessSize) (off : Nat)
  deriving DecidableEq, Repr

/-- What ends a computation inside a command without a next state. -/
inductive Stop where
  | fault (f : Fault)
  | refuse (r : Refusal)
  deriving DecidableEq, Repr

/-- The three result values (R24, R260): "No other states." -/
inductive Result where
  | success
  | invalidInput
  | outOfMemory
  deriving DecidableEq, Repr

/-- Host memory: (address, byte) pairs, addresses strictly rising. An address that is not listed holds no readable byte (log 6). -/
abbrev Memory := List Host.Cell

/-- The lane sum table `LANE[l][k]`, l in 0..8, k in 0..3 (R27). -/
abbrev LaneTable := Vector (Vector Buf 3) 8

/-- The owned buffers of an initialised encoder (20_memory.md R60, BUF). -/
structure Buffers where
  /-- `WIN.PTR[0 .. WIN_N)` (R26). -/
  ptr : List Addr
  /-- `LANE[8][3]` (R27). -/
  lane : LaneTable
  /-- `SUM` (R28). -/
  sum : Buf
  /-- `PROD` (R28). -/
  prod : Buf
  deriving DecidableEq, Repr

/-- A source reference of an XOR accumulator (42_xor_accumulator.md R161). -/
inductive SrcRef where
  /-- The cell `LANE[l][k]`. -/
  | cell (l : Fin 8) (k : Fin 3)
  /-- Original `c`, not the final one. -/
  | original (c : Nat)
  deriving DecidableEq, Repr

/-- The PRNG after a seed: the pair it was seeded with and the number of words drawn since (R31, R147). -/
structure Prng where
  row : Word
  count : Word
  drawn : Nat
  deriving DecidableEq, Repr

/-- Transient state of the engine: at rest between commands (R20, R31, R32). -/
structure Engine where
  /-- The PRNG, alive only inside an ENCODE (R31). -/
  prng : Option Prng
  /-- The lane index of ENCODE step 3 (R215); it starts from 0 in every command (R20). -/
  lane : Fin 8
  /-- The queue of `XS`, whose destination is SUM (R160, R161). -/
  xs : List SrcRef
  /-- The queue of `XP`, whose destination is PROD (R160, R161). -/
  xp : List SrcRef
  /-- A row opcode waiting to be executed on its own (the model's own field, log 4). -/
  rowop : Option (BitVec 6)
  deriving DecidableEq, Repr

/-- The engine between commands: nothing pending (R34). -/
def Engine.rest : Engine := { prng := none, lane := 0, xs := [], xp := [], rowop := none }

/-- The whole state. -/
structure State where
  /-- `STATUS.RESULT` (R24). -/
  result : Result
  /-- `STATUS.SYMVALID` (R24). -/
  symValid : Bool
  /-- `ARG_N` (R22). -/
  argN : Word
  /-- `ARG_ROW` (R22). -/
  argRow : Word
  /-- `ARG_BYTES_LO` (R22). -/
  argBytesLo : Word
  /-- `ARG_BYTES_HI` (R22). -/
  argBytesHi : Word
  /-- `ARG_PTRTAB_LO` (R22). -/
  argPtrtabLo : Word
  /-- `ARG_PTRTAB_HI` (R22). -/
  argPtrtabHi : Word
  /-- `WIN_N` (R25). -/
  winN : Word
  /-- `WIN_S` (R25). -/
  winS : Word
  /-- `WIN_F` (R25). -/
  winF : Word
  /-- `SYM_ROW` (R29). -/
  symRow : Word
  /-- `SYM_BYTES` (R29). -/
  symBytes : Word
  /-- `SYM_PTR` (R29). -/
  symPtr : Word
  /-- WIN.PTR, LANE, SUM and PROD, while they exist; `STATUS.READY` is that they do (R24, log 10). -/
  bufs : Option Buffers
  /-- Transient engine state (R20, R31, R32). -/
  engine : Engine
  /-- Host memory (R60, R61), an input of the step. -/
  hmem : Memory
  /-- The host's coming moves, next one first (the model's own field, log 2). -/
  queue : List HostMove
  /-- The value the host's latest read returned (the model's own field, log 3). -/
  readData : Word
  /-- The number of free values drawn so far (the model's own field, log 8). -/
  freeIx : Nat
  deriving DecidableEq, Repr

/-- The state right after reset (10_state.md R34, 70_reset_and_hazards.md R300). -/
def State.reset : State where
  result := .success
  symValid := false
  argN := 0
  argRow := 0
  argBytesLo := 0
  argBytesHi := 0
  argPtrtabLo := 0
  argPtrtabHi := 0
  winN := 0
  winS := 0
  winF := 0
  symRow := 0
  symBytes := 0
  symPtr := 0
  bufs := none
  engine := Engine.rest
  hmem := []
  queue := []
  readData := 0
  freeIx := 0

end Sys2Proof.Machine
end

