-- ==== Sys2Proof/Machine/Flags.lean ====
section
/-! DEFINITION. The STATUS register and the two flags READY and SYMVALID (10_state.md R24, R30). -/

namespace Sys2Proof.Machine

/-- The code of a result (30_encoding.md R95); 3 is never produced. -/
def Result.code : Result → BitVec 2
  | .success => 0
  | .invalidInput => 1
  | .outOfMemory => 2

/-- `STATUS.READY`: 1 exactly when the Product buffer is allocated (R24, log 10). -/
def State.ready (s : State) : Bool := s.bufs.isSome

/-- The STATUS word (R24): RESULT in bits 1:0, READY in bit 2, SYMVALID in bit 3, the rest 0. -/
def State.status (s : State) : Word :=
  (0 : BitVec 28) ++ BitVec.ofBool s.symValid ++ BitVec.ofBool s.ready ++ s.result.code

/-- `STATUS.RESULT <- r`, and nothing else. -/
def State.setResult (s : State) (r : Result) : State := { s with result := r }

end Sys2Proof.Machine
end

