-- ==== Sys2Proof/Machine/Operands.lean ====
section
/-! DEFINITION. Operand assembly from the ARG registers (30_encoding.md R94, 10_state.md R22). -/

namespace Sys2Proof.Machine

/-- The value of a `_HI`/`_LO` register pair, `hi * 2^32 + lo` (R22, R66). -/
def pairValue (hi lo : Word) : Nat := hi.toNat * 2 ^ 32 + lo.toNat

/-- Operand N of INIT (R94). -/
def State.operandN (s : State) : Nat := s.argN.toNat

/-- Operand total_bytes, T, of INIT: `ARG_BYTES` (R94). -/
def State.operandBytes (s : State) : Nat := pairValue s.argBytesHi s.argBytesLo

/-- Operand ptrtab of INIT: `ARG_PTRTAB` (R94). -/
def State.operandPtrtab (s : State) : Nat := pairValue s.argPtrtabHi s.argPtrtabLo

/-- Operand row of ENCODE (R94): every 32-bit value is valid (R211). -/
def State.operandRow (s : State) : Word := s.argRow

end Sys2Proof.Machine
end

