-- ==== Sys2Proof/Machine/Ops.lean ====
section
/-! DEFINITION. The shared operations: host memory, the pointer table, the Window and its originals, free values, the PRNG,
release() and the end of a command (20_memory.md, 41_mappings_prng.md, 45_lifecycle.md). There is no exception entry and no return
from one to model: "There is no trap entry" (60_exceptions.md R271, R272); a failure is a result code (R264 to R266). -/

namespace Sys2Proof.Machine

/-! ### Host memory -/

/-- The readable byte at `a`, if there is one (R61, R73). -/
def Memory.read : Memory → Nat → Option Byte
  | [], _ => none
  | (k, b) :: m, a => if a = k then some b else if a < k then none else Memory.read m a

/-- The host stores `b` at `a` (R76). -/
def Memory.store : Memory → Nat → Byte → Memory
  | [], a, b => [(a, b)]
  | (k, v) :: m, a, b =>
    if a = k then (a, b) :: m else if a < k then (a, b) :: (k, v) :: m else (k, v) :: Memory.store m a b

/-- The host takes the byte at `a` away ("or unmap it", R76). -/
def Memory.unmap : Memory → Nat → Memory
  | [], _ => []
  | (k, v) :: m, a => if a = k then m else if a < k then (k, v) :: m else (k, v) :: Memory.unmap m a

/-- The canonical form: addresses strictly rising and inside the 64-bit space (R60). An unlisted address holds no byte, so no
entry can equal what an unlisted address reads as. -/
def Memory.wf (m : Memory) : Bool :=
  m.all (fun c => decide (c.1 < addressTop)) && decide (m.Pairwise fun c d => c.1 < d.1)

/-- `MemRead(addr, n)` (R61): the n bytes from `a` upward; the first one that is not readable is a fault (R73). -/
def memRead (m : Memory) (a : Nat) : Nat → Except Stop (List Byte)
  | 0 => .ok []
  | n + 1 =>
    match m.read a with
    | none => .error (.fault (.unreadable a))
    | some b => (memRead m (a + 1) n).map (b :: ·)

/-- The little-endian number of a byte sequence: the sum of `byte j * 256^j` (R63, R66). -/
def littleEndian : List Byte → Nat
  | [] => 0
  | b :: bs => b.toNat + 256 * littleEndian bs

/-- `MemRead64(addr)` (R63). -/
def memRead64 (m : Memory) (a : Nat) : Except Stop Addr :=
  (memRead m a 8).map fun bs => BitVec.ofNat 64 (littleEndian bs)

/-- Whether the n bytes from `a` end at or below 2^64 (R72). -/
def inAddressSpace (a n : Nat) : Bool := decide (a + n ≤ addressTop)

/-! ### The Window and its originals -/

/-- The Window: N, S, F and the pointer table (R25, R26). -/
structure Window where
  n : Nat
  s : Nat
  f : Nat
  ptr : List Addr
  deriving DecidableEq, Repr

/-- `len(c)`: F for the final column, else S (R64). -/
def Window.len (w : Window) (c : Nat) : Nat := if c = w.n - 1 then w.f else w.s

/-- Whether every region of an original ends at or below 2^64 (R72). -/
def Window.inAddressSpace (w : Window) : Bool :=
  (List.range w.n).all fun c => Machine.inAddressSpace (w.ptr.getD c 0).toNat (w.len c)

/-- The `len(c)` bytes of original c (R64). -/
def readOriginal (m : Memory) (w : Window) (c : Nat) : Except Stop (List Byte) :=
  match w.ptr[c]? with
  | none => .error (.fault (.noPointer c))
  | some p => memRead m p.toNat (w.len c)

/-- Byte i of the zero-extended view `ORIG(c)` (R65), where it can be read. -/
def origByte (m : Memory) (w : Window) (c i : Nat) : Option Byte :=
  if i < w.len c then w.ptr[c]?.bind fun p => m.read (p.toNat + i)
  else if i < w.s then some 0
  else none

/-- The Window the registers and the pointer table hold (R25, R26). -/
def State.window (s : State) (b : Buffers) : Window :=
  { n := s.winN.toNat, s := s.winS.toNat, f := s.winF.toNat, ptr := b.ptr }

/-! ### The lane sum table -/

/-- The cell `LANE[l][k]` (R27). -/
def laneCell (t : LaneTable) (l : Fin 8) (k : Fin 3) : Buf := (t.get l).get k

/-- The lane of column c, `c mod L` (R188). -/
def laneOf (c : Nat) : Fin 8 := Fin.ofNat 8 c

/-! ### Free values -/

/-- n bytes of unspecified value, drawn from the counter value `k` on (R28, U5, U6; log 8). -/
def freeBytes (k n : Nat) : Buf := (List.range n).map fun i => Config.freeByte (k + i)

/-! ### The PRNG -/

/-- `seed(r, N)` (R145, R212): no word drawn yet. -/
def Prng.seed (row count : Word) : Prng := { row, count, drawn := 0 }

/-- `draw()` (R147): the next word, and the generator after it. -/
def Prng.draw (cfg : Config) (g : Prng) : Word × Prng :=
  (cfg.prng g.row g.count g.drawn, { g with drawn := g.drawn + 1 })

/-- A column index from a word: `next() mod N` (R148). -/
def columnOf (w : Word) (n : Nat) : Nat := w.toNat % n

/-! ### Commands -/

/-- `release()` (45_lifecycle.md R241): READY, SYMVALID, WIN_* and SYM_* become 0 and the owned buffers cease to exist. -/
def State.release (s : State) : State :=
  { s with
    symValid := false
    bufs := none
    winN := 0
    winS := 0
    winF := 0
    symRow := 0
    symBytes := 0
    symPtr := 0 }

/-- What a computation inside a command makes of the machine. -/
def Stop.toOutcome : Stop → Host.Outcome State Fault Refusal
  | .fault f => .fault f
  | .refuse r => .refused r

/-- Go on with the value of a computation, or stop as it stopped. -/
def continueWith {α : Type} (x : Except Stop α) (k : α → Host.Outcome State Fault Refusal) :
    Host.Outcome State Fault Refusal :=
  match x with
  | .ok v => k v
  | .error e => e.toOutcome

end Sys2Proof.Machine
end

