-- ==== Sys2Proof/Machine/Rowop.lean ====
section
/-! DEFINITION. The row opcode (30_encoding.md R97): the six micro-operations of one lane of ENCODE step 3 (44_encode.md R215). -/

namespace Sys2Proof.Machine

/-- `for k in 0..3: if op[first + k] = 1 then buf_add(dst, LANE[lane][k], S)` (R215). -/
def addSelected (cells : Vector Buf 3) (op : BitVec 6) (first S : Nat) (dst : Buf) : Buf :=
  (List.finRange 3).foldl (fun d (k : Fin 3) => if op.getLsbD (first + k.val) then bufAdd d (cells.get k) S else d) dst

/-- One row opcode on (SUM, PROD): bits 0..2 select cells for SUM, bits 3..5 for PROD (R97, R215). -/
def rowopApply (cells : Vector Buf 3) (op : BitVec 6) (S : Nat) (acc : Buf × Buf) : Buf × Buf :=
  (addSelected cells op 0 S acc.1, addSelected cells op 3 S acc.2)

/-- The meaning of `ROWOP` standing alone: its micro-operations with the engine's lane (log 4). Where no buffers exist WIN_S is 0
and nothing is added (log 5). -/
def execRowop (op : BitVec 6) (s : State) : Host.Outcome State Fault Refusal :=
  .next
    { s with
      bufs := s.bufs.map fun b =>
        let acc := rowopApply (b.lane.get s.engine.lane) op s.winS.toNat (b.sum, b.prod)
        { b with sum := acc.1, prod := acc.2 } }

end Sys2Proof.Machine
end

