-- ==== Sys2Proof/Machine/Encode.lean ====
section
/-! DEFINITION. The ENCODE command (44_encode.md R210 to R217), step by step, written with plain buf_add
(42_xor_accumulator.md R166; the accumulators are in Xacc.lean). -/

namespace Sys2Proof.Machine

/-- `pairCount = ceil(N / 16)` (R213). -/
def pairCount (N : Nat) : Nat := (N + (pairAddRate - 1)) / pairAddRate

/-- What step 2 works on: the generator, SUM and PROD. -/
structure Overlay where
  prng : Prng
  sum : Buf
  prod : Buf
  deriving DecidableEq, Repr

/-- Pair i of the overlay (the loop body of R213): `e1` is drawn before `eRX` (D18, log 18). -/
def overlayPair (cfg : Config) (m : Memory) (w : Window) (i : Nat) (o : Overlay) : Except Stop Overlay :=
  let (w1, g1) := o.prng.draw cfg
  let (w2, g2) := g1.draw cfg
  let e1 := columnOf w1 w.n
  let eRX := columnOf w2 w.n
  match readOriginal m w e1, readOriginal m w eRX with
  | .ok a, .ok b =>
    .ok <|
      if i = 0 then { prng := g2, sum := bufCopyZt a (w.len e1) w.s, prod := bufCopyZt b (w.len eRX) w.s }
      else { prng := g2, sum := bufAdd o.sum a (w.len e1), prod := bufAdd o.prod b (w.len eRX) }
  | .error e, _ => .error e
  | .ok _, .error e => .error e

/-- The first n pairs of step 2, in order (R213). -/
def overlayPairs (cfg : Config) (m : Memory) (w : Window) (o : Overlay) : Nat → Except Stop Overlay
  | 0 => .ok o
  | i + 1 => (overlayPairs cfg m w o i).bind (overlayPair cfg m w i)

/-- Step 2, the pair overlay (R213, R214), refused where a region would run past 2^64 (R72, log 11). -/
def overlay (cfg : Config) (m : Memory) (w : Window) (o : Overlay) : Except Stop Overlay :=
  if w.inAddressSpace then overlayPairs cfg m w o (pairCount w.n) else .error (.refuse .pastAddressSpace)

/-- Step 3, the mixing, over all lanes in order (R215). -/
def mix (cfg : Config) (r : Word) (t : LaneTable) (S : Nat) (acc : Buf × Buf) : Buf × Buf :=
  (List.finRange 8).foldl (fun a l => rowopApply (t.get l) (cfg.rowOp l r) S a) acc

/-- Step 4, the blend: `buf_muladd(SUM, RX(r), PROD, S)` (R216). PROD is only read. -/
def blend (cfg : Config) (r : Word) (S : Nat) (acc : Buf × Buf) : Buf := bufMuladd acc.1 (cfg.rx r) acc.2 S

/-- The aperture offset of a published symbol (R29). -/
def apertureBase : Nat := 0x1000

/-- Step 5, publish (R217), with the buffers as step 4 leaves them; the generator and the lane index do not outlive the command
(R31, R20). -/
def State.publish (s : State) (b : Buffers) (r : Word) : State :=
  { s with
    bufs := some b
    symRow := r
    symBytes := s.winS
    symPtr := BitVec.ofNat 32 apertureBase
    symValid := true
    result := .success
    engine := { s.engine with prng := none, lane := 0 } }

/-- ENCODE (R210) on a block of configuration `cfg`. -/
def encodeWith (cfg : Config) (s : State) : Host.Outcome State Fault Refusal :=
  match s.bufs with
  | none => .next (s.setResult .invalidInput)
  | some b =>
    let r := s.operandRow
    let w := s.window b
    continueWith (overlay cfg s.hmem w { prng := Prng.seed r s.winN, sum := b.sum, prod := b.prod }) fun o =>
      let acc := mix cfg r b.lane w.s (o.sum, o.prod)
      .next (s.publish { b with sum := blend cfg r w.s acc, prod := acc.2 } r)

/-- The meaning of `ENCODE`. -/
def execEncode (s : State) : Host.Outcome State Fault Refusal := encodeWith config s

end Sys2Proof.Machine
end

