-- ==== Sys2Proof/Machine/Init.lean ====
section
/-! DEFINITION. The INIT command (43_init.md R180 to R190), phase by phase. -/

namespace Sys2Proof.Machine

/-- Phase 1, `set_parameters(N, T)` (R182, R183): (S, F), or none where INIT fails with InvalidInput. -/
def setParameters (N T : Nat) : Option (Nat × Nat) :=
  if N = 0 then none
  else if T < N then none
  else
    let S := (T + N - 1) / N
    if (N - 1) * S ≥ T then none else some (S, T - (N - 1) * S)

/-- The entries c, c+1, ... (n of them) of the pointer table at `tab`; none where one is null. The scan stops there (R184). -/
def scanPointers (m : Memory) (tab : Nat) : Nat → Nat → Except Stop (Option (List Addr))
  | _, 0 => .ok (some [])
  | c, n + 1 =>
    match memRead64 m (tab + 8 * c) with
    | .error e => .error e
    | .ok p => if p = 0 then .ok none else (scanPointers m tab (c + 1) n).map (Option.map (p :: ·))

/-- Phase 2, `set_encoder_input(tab, N)` (R184), refused where the table would run past 2^64 (R72). -/
def setEncoderInput (m : Memory) (tab N : Nat) : Except Stop (Option (List Addr)) :=
  if inAddressSpace tab (8 * N) then scanPointers m tab 0 N else .error (.refuse .pastAddressSpace)

/-- Phase 3: the capacity suffices (R186). -/
def fits (cfg : Config) (N S : Nat) : Bool := decide (N ≤ cfg.nmax) && decide (S ≤ cfg.smax)

/-- Phase 4: 24 lane cells of S zero bytes (R187). -/
def zeroLanes (S : Nat) : LaneTable := Vector.replicate 8 (Vector.replicate 3 (zeroBuf S))

/-- The three updates of column c (the loop body of R188), for the `len` bytes `src` of its original. -/
def addColumn (cfg : Config) (t : LaneTable) (c : Nat) (src : Buf) (len : Nat) : LaneTable :=
  let l := laneOf c
  let cx := cfg.cx c
  let cx2 := gfSqr cx
  t.set l
    #v[bufAdd (laneCell t l 0) src len, bufMuladd (laneCell t l 1) cx src len, bufMuladd (laneCell t l 2) cx2 src len]

/-- Phase 5 over the columns 0..n of the window (R188, R189). -/
def addColumns (cfg : Config) (m : Memory) (w : Window) : Nat → Except Stop LaneTable
  | 0 => .ok (zeroLanes w.s)
  | c + 1 =>
    match addColumns cfg m w c with
    | .error e => .error e
    | .ok t => (readOriginal m w c).map fun src => addColumn cfg t c src (w.len c)

/-- Phases 4 and 5, `build_lane_sums` (R187 to R189), refused where a region would run past 2^64 (R72, log 11). -/
def buildLaneSums (cfg : Config) (m : Memory) (w : Window) : Except Stop LaneTable :=
  if w.inAddressSpace then addColumns cfg m w w.n else .error (.refuse .pastAddressSpace)

/-- Phase 6, `commit` (R190). SUM and PROD are allocated and not initialised (R187, R28): their bytes are free values (log 9). -/
def State.commit (s : State) (w : Window) (t : LaneTable) : State :=
  { s with
    winN := BitVec.ofNat 32 w.n
    winS := BitVec.ofNat 32 w.s
    winF := BitVec.ofNat 32 w.f
    bufs := some
      { ptr := w.ptr
        lane := t
        sum := freeBytes s.freeIx w.s
        prod := freeBytes (s.freeIx + w.s) w.s }
    freeIx := s.freeIx + 2 * w.s
    symValid := false
    result := .success }

/-- INIT (R180) on a block of configuration `cfg`: the phases in order, the first failing check ending the command. -/
def initWith (cfg : Config) (s : State) : Host.Outcome State Fault Refusal :=
  let r := s.release
  let N := s.operandN
  match setParameters N s.operandBytes with
  | none => .next (r.setResult .invalidInput)
  | some (S, F) =>
    continueWith (setEncoderInput s.hmem s.operandPtrtab N) fun
      | none => .next (r.setResult .invalidInput)
      | some ptr =>
        if fits cfg N S then
          let w : Window := { n := N, s := S, f := F, ptr := ptr }
          continueWith (buildLaneSums cfg s.hmem w) fun t => .next (r.commit w t)
        else .next (r.setResult .outOfMemory)

/-- The meaning of `INIT`. -/
def execInit (s : State) : Host.Outcome State Fault Refusal := initWith config s

end Sys2Proof.Machine
end

