-- ==== Sys2Proof/Machine/Lifecycle.lean ====
section
/-! DEFINITION. FREE and ILLEGAL (45_lifecycle.md R240, R244). -/

namespace Sys2Proof.Machine

/-- The meaning of `FREE`: release, then Success (R240). -/
def execFree (s : State) : Host.Outcome State Fault Refusal := .next (s.release.setResult .success)

/-- The meaning of `ILLEGAL`: RESULT becomes InvalidInput and nothing else changes (R244), whatever the word. -/
def execIllegal (_word : Word) (s : State) : Host.Outcome State Fault Refusal := .next (s.setResult .invalidInput)

end Sys2Proof.Machine
end

