-- ==== Sys2Proof/Machine/Dispatch.lean ====
section
/-! DEFINITION. One arm per constructor of Instr, each one call of its meaning. -/

namespace Sys2Proof.Machine

def exec (i : Instr) (s : State) : Host.Outcome State Fault Refusal :=
  match i with
  | .init => Sys2Proof.Machine.execInit s
  | .encode => Sys2Proof.Machine.execEncode s
  | .free => Sys2Proof.Machine.execFree s
  | .illegal w => Sys2Proof.Machine.execIllegal w s
  | .rowop op => Sys2Proof.Machine.execRowop op s

end Sys2Proof.Machine
end

