-- ==== Sys2Proof/WellFormed.lean ====
section
/-! DEFINITION. The check an instruction passes before it means anything. -/

namespace Sys2Proof

/-- A CMD32 word that selects one of the three commands (30_encoding.md R92). -/
def selectsCommand (w : Word) : Bool := w == 0x00000001#32 || w == 0x00000002#32 || w == 0x00000003#32

/-- ILLEGAL is only ever a word that selects no command (R93). All 64 row opcodes are legal (R97). -/
def Instr.wellFormed : Instr → Bool
  | .init => true
  | .encode => true
  | .free => true
  | .illegal w => !selectsCommand w
  | .rowop _ => true

/-- `Instr.wellFormed` as a proposition. -/
abbrev Instr.WellFormed (i : Instr) : Prop := i.wellFormed = true

end Sys2Proof
end

