-- ==== Sys2Proof/Decode.lean ====
section
/-! DEFINITION. The decoder of the formats CMD32 and ROWOP6 (30_encoding.md R90 to R93, R97), and the encoder. -/

namespace Sys2Proof

/-- Field `OP` of a CMD32 word, bits 7:0 (R91). -/
def cmdOp (w : Word) : BitVec 8 := w.extractLsb' 0 8

/-- Field `ZERO` of a CMD32 word, bits 31:8 (R91). -/
def cmdZero (w : Word) : BitVec 24 := w.extractLsb' 8 24

/-- The command a CMD32 word selects (R92); every other word is ILLEGAL (R93). -/
def decodeCmd (w : Word) : Instr :=
  if cmdZero w = 0 then
    if cmdOp w = 0x01#8 then .init
    else if cmdOp w = 0x02#8 then .encode
    else if cmdOp w = 0x03#8 then .free
    else .illegal w
  else .illegal w

/-- The decoder, total: "rejection" of a CMD32 word is the pseudo-command ILLEGAL, which carries the word (R93). -/
def decode : Item → Instr
  | .cmd32 w => decodeCmd w
  | .rowop6 op => .rowop op

/-- The six bits that are used of the value `GetRowOpcode` returns: "Bits above bit 5 ... are ignored" (R97). -/
def rowopBits (v : Nat) : BitVec 6 := BitVec.ofNat 6 v

/-- The item whose bits, numbered as opcode_table.json numbers them, are `w`: a row of at most 8 bits is a ROWOP6 value, a row of
at most 32 a CMD32 word (R90); there is no wider format, and an item of no bits is none. -/
def itemOfTable (nbits w : Nat) : Option Item :=
  if nbits = 0 then none
  else if nbits ≤ 8 then some (.rowop6 (rowopBits w))
  else if nbits ≤ 32 then some (.cmd32 (BitVec.ofNat 32 w))
  else none

/-- The instruction the decoder reads from a table row's bits. -/
def decodeTableWord (nbits w : Nat) : Option Instr := (itemOfTable nbits w).map decode

/-- The CMD32 word with the given fields (R91). -/
def cmdWord (zero : BitVec 24) (op : BitVec 8) : Word := zero ++ op

/-- The encoded item of an instruction (R91, R92, R97). -/
def encode : Instr → Item
  | .init => .cmd32 (cmdWord 0 0x01#8)
  | .encode => .cmd32 (cmdWord 0 0x02#8)
  | .free => .cmd32 (cmdWord 0 0x03#8)
  | .illegal w => .cmd32 w
  | .rowop op => .rowop6 op

end Sys2Proof
end

