-- ==== Sys2Proof/Machine/Bus.lean ====
section
/-! DEFINITION. The register bank and the aperture (10_state.md R21 to R36, 20_memory.md R70), what the host's moves other than
a command do, and the host programs of 30_encoding.md R100, R101. -/

namespace Sys2Proof.Machine

/-- The fourteen registers (R21). -/
inductive Reg where
  | cmd
  | status
  | argN
  | argRow
  | argBytesLo
  | argBytesHi
  | argPtrtabLo
  | argPtrtabHi
  | winN
  | winS
  | winF
  | symRow
  | symBytes
  | symPtr
  deriving DecidableEq, Repr

/-- The byte offset of a register (R21). -/
def Reg.offset : Reg → Nat
  | .cmd => 0x000
  | .status => 0x004
  | .argN => 0x008
  | .argRow => 0x00C
  | .argBytesLo => 0x010
  | .argBytesHi => 0x014
  | .argPtrtabLo => 0x018
  | .argPtrtabHi => 0x01C
  | .winN => 0x020
  | .winS => 0x024
  | .winF => 0x028
  | .symRow => 0x02C
  | .symBytes => 0x030
  | .symPtr => 0x034

/-- All registers, in the order of their offsets (R21). -/
def Reg.all : List Reg :=
  [.cmd, .status, .argN, .argRow, .argBytesLo, .argBytesHi, .argPtrtabLo, .argPtrtabHi, .winN, .winS, .winF, .symRow,
    .symBytes, .symPtr]

/-- The register at an offset; every other offset of the bank is reserved (R21, R35). -/
def regAt (off : Nat) : Option Reg := Reg.all.find? fun r => r.offset = off

/-- What a host read of a register returns (R242): the current value; CMD reads 0 (R23). -/
def State.readReg (s : State) : Reg → Word
  | .cmd => 0
  | .status => s.status
  | .argN => s.argN
  | .argRow => s.argRow
  | .argBytesLo => s.argBytesLo
  | .argBytesHi => s.argBytesHi
  | .argPtrtabLo => s.argPtrtabLo
  | .argPtrtabHi => s.argPtrtabHi
  | .winN => s.winN
  | .winS => s.winS
  | .winF => s.winF
  | .symRow => s.symRow
  | .symBytes => s.symBytes
  | .symPtr => s.symPtr

/-- What a host write to a register stores: the ARG registers take all 32 bits (R22), the read-only registers ignore it (R35), and
CMD stores nothing (R23). -/
def State.writeReg (s : State) (v : Word) : Reg → State
  | .argN => { s with argN := v }
  | .argRow => { s with argRow := v }
  | .argBytesLo => { s with argBytesLo := v }
  | .argBytesHi => { s with argBytesHi := v }
  | .argPtrtabLo => { s with argPtrtabLo := v }
  | .argPtrtabHi => { s with argPtrtabHi := v }
  | .cmd => s
  | .status => s
  | .winN => s
  | .winS => s
  | .winF => s
  | .symRow => s
  | .symBytes => s
  | .symPtr => s

/-- The specified value of aperture byte i, if it has one (R70, R35): SUM[i] while SYMVALID = 1 and i < SYM_BYTES, 0 at or beyond
SMAX, and otherwise none (U5). -/
def apertureByte (cfg : Config) (s : State) (i : Nat) : Option Byte :=
  if cfg.smax ≤ i then some 0
  else if s.symValid = true ∧ i < s.symBytes.toNat then s.bufs.bind fun b => b.sum[i]?
  else none

/-- A read of aperture byte i: an unspecified byte is a fresh free value (R70, U5; log 8). -/
def readAperture (cfg : Config) (s : State) (i : Nat) : Byte × State :=
  match apertureByte cfg s i with
  | some b => (b, s)
  | none => (Config.freeByte s.freeIx, { s with freeIx := s.freeIx + 1 })

/-- A 32-bit read of the aperture at byte index i: four bytes, little-endian, each by the same rule (R70). -/
def readAperture32 (cfg : Config) (s : State) (i : Nat) : Word × State :=
  let (b0, s0) := readAperture cfg s i
  let (b1, s1) := readAperture cfg s0 (i + 1)
  let (b2, s2) := readAperture cfg s1 (i + 2)
  let (b3, s3) := readAperture cfg s2 (i + 3)
  (b3 ++ b2 ++ b1 ++ b0, s3)

/-- The host obtains a value (log 3). -/
def State.obtain (s : State) (v : Word) : State := { s with readData := v }

/-- A host read (R36, R242, R70): the bank by aligned words, the aperture by bytes and aligned words; nothing else is defined. -/
def hostRead (cfg : Config) (size : AccessSize) (off : Nat) (s : State) : Host.Outcome State Fault Refusal :=
  match size with
  | .word =>
    if off % 4 ≠ 0 then .refused (.undefinedAccess size off)
    else if off < apertureBase then .next (s.obtain ((regAt off).elim 0 s.readReg))
    else
      let (v, s') := readAperture32 cfg s (off - apertureBase)
      .next (s'.obtain v)
  | .byte =>
    if off < apertureBase then .refused (.undefinedAccess size off)
    else
      let (b, s') := readAperture cfg s (off - apertureBase)
      .next (s'.obtain (b.setWidth 32))
  | .half => .refused (.undefinedAccess size off)
  | .double => .refused (.undefinedAccess size off)

/-- A host write that is not a command (R22, R35, R36): every write to the aperture is ignored (U12); the bank takes aligned words. -/
def hostWrite (size : AccessSize) (off : Nat) (v : Word) (s : State) : Host.Outcome State Fault Refusal :=
  if apertureBase ≤ off then .next s
  else if size = .word ∧ off % 4 = 0 then .next ((regAt off).elim s (s.writeReg v))
  else .refused (.undefinedAccess size off)

/-- Reset (R300): all block state as R34 says. Host memory (R301) and what is the host's own stay (log 15). -/
def State.resetBlock (s : State) : State :=
  { State.reset with hmem := s.hmem, queue := s.queue, readData := s.readData, freeIx := s.freeIx }

/-- One move of the host that is not a CMD write. -/
def hostMove (cfg : Config) (m : HostMove) (s : State) : Host.Outcome State Fault Refusal :=
  match m with
  | .write size off v => hostWrite size off v s
  | .read size off => hostRead cfg size off s
  | .hmemStore a b => .next { s with hmem := s.hmem.store a.toNat b }
  | .hmemUnmap a => .next { s with hmem := s.hmem.unmap a.toNat }
  | .reset => .next s.resetBlock

/-! ### Host programs -/

/-- `W <reg>, <value>` (R100). -/
def hostW (r : Reg) (v : Word) : HostMove := .write .word r.offset v

/-- `R <reg>` (R100). -/
def hostR (r : Reg) : HostMove := .read .word r.offset

/-- `RB <i>` (R100): the host reads aperture byte i. -/
def hostRB (i : Nat) : HostMove := .read .byte (apertureBase + i)

/-- The shorthand `INIT n, bytes, ptrtab` (R101). -/
def programInit (n : Word) (bytes ptrtab : BitVec 64) : List HostMove :=
  [hostW .argN n,
    hostW .argBytesLo (bytes.extractLsb' 0 32),
    hostW .argBytesHi (bytes.extractLsb' 32 32),
    hostW .argPtrtabLo (ptrtab.extractLsb' 0 32),
    hostW .argPtrtabHi (ptrtab.extractLsb' 32 32),
    hostW .cmd 0x00000001#32]

/-- The shorthand `ENCODE row` (R101). -/
def programEncode (row : Word) : List HostMove := [hostW .argRow row, hostW .cmd 0x00000002#32]

/-- The line `FREE` (R100). -/
def programFree : List HostMove := [hostW .cmd 0x00000003#32]

end Sys2Proof.Machine
end

