-- ==== Sys2Proof/Machine/Fetch.lean ====
section
/-! DEFINITION. What the engine does next: there is no program counter (10_state.md R20), so an encoded item reaches the decoder
through a host write to CMD (R23), or stands in the micro-operation slot (log 4); log 2 says how a program comes to run. -/

namespace Sys2Proof.Machine

/-- What a step finds to do. -/
inductive Fetched where
  /-- Nothing: the block is idle (R280). -/
  | idle
  /-- An encoded item to decode and execute. -/
  | item (it : Item)
  /-- A move of the host that is no command. -/
  | move (m : HostMove)
  deriving DecidableEq, Repr

/-- What a move of the host is to the block: an aligned 32-bit write to CMD carries a command word (R23). -/
def classify : HostMove → Fetched
  | .write size off v => if size = .word ∧ off = Reg.cmd.offset then .item (.cmd32 v) else .move (.write size off v)
  | .read size off => .move (.read size off)
  | .hmemStore a b => .move (.hmemStore a b)
  | .hmemUnmap a => .move (.hmemUnmap a)
  | .reset => .move .reset

/-- What is next, and the state with it taken: a waiting row opcode first, then the host's moves in issue order (R37). -/
def State.fetch (s : State) : Fetched × State :=
  match s.engine.rowop with
  | some op => (.item (.rowop6 op), { s with engine := { s.engine with rowop := none } })
  | none =>
    match s.queue with
    | [] => (.idle, s)
    | m :: q => (classify m, { s with queue := q })

/-- An item placed so that the next fetch takes it: a CMD32 word as the host's next move, a ROWOP6 value in the slot (log 2, log 4). -/
def State.place (s : State) : Item → State
  | .cmd32 w =>
    { s with
      queue := hostW .cmd w :: s.queue
      engine := { s.engine with rowop := none } }
  | .rowop6 op => { s with engine := { s.engine with rowop := some op } }

end Sys2Proof.Machine
end

