-- ==== Sys2Proof/Machine/Step.lean ====
section
/-! DEFINITION. The step: one indivisible event (60_exceptions.md R269), a command, another move of the host, or nothing. -/

namespace Sys2Proof.Machine

/-- One step: fetch, then decode and execute, or make the host's move; an idle block holds its state (R280). -/
def step (s : State) : Host.Outcome State Fault Refusal :=
  match s.fetch with
  | (.idle, s') => .next s'
  | (.item it, s') => exec (decode it) s'
  | (.move m, s') => hostMove config m s'

/-- `s` with the item of a table row's bits placed where the next step fetches it (log 2, log 4). -/
def State.withFetchWord (s : State) (nbits w : Nat) : State := (itemOfTable nbits w).elim s s.place

end Sys2Proof.Machine
end

