-- ==== Sys2Proof/Machine/Xacc.lean ====
section
/-! DEFINITION. The XOR accumulators XS and XP (42_xor_accumulator.md R160 to R165) and ENCODE carried out through them.
The command's meaning is Encode.lean's; R166 says that this engine leaves the same state, which is stated as an obligation (log 16). -/

namespace Sys2Proof.Machine

/-- An accumulator in use: its destination's bytes and its queue of pending source references (R161). -/
structure Xacc where
  dest : Buf
  queue : List SrcRef
  deriving DecidableEq, Repr

/-- Where source references point: host memory, the Window and the lane table (R161). -/
structure Sources where
  mem : Memory
  window : Window
  lane : LaneTable
  deriving DecidableEq, Repr

/-- The S bytes of a source reference, read when they are needed (R161, R163). -/
def Sources.bytes (src : Sources) : SrcRef → Except Stop Buf
  | .cell l k => .ok (laneCell src.lane l k)
  | .original c => readOriginal src.mem src.window c

/-- The XOR over every source of a queue (R163), from S bytes of zero. -/
def Sources.xorAll (src : Sources) : List SrcRef → Except Stop Buf
  | [] => .ok (zeroBuf src.window.s)
  | r :: rs => (src.bytes r).bind fun b => (src.xorAll rs).map fun x => bufAdd x b src.window.s

/-- `X.FLUSH()` (R163): the destination is read once and written once, and the queue is empty after it. -/
def Xacc.flush (x : Xacc) (src : Sources) : Except Stop Xacc :=
  (src.xorAll x.queue).map fun q => { dest := bufAdd x.dest q src.window.s, queue := [] }

/-- `X.ADD(src)` (R162) of an accumulator of depth `depth` = XACC_B. -/
def Xacc.add (x : Xacc) (depth : Nat) (src : Sources) (r : SrcRef) : Except Stop Xacc :=
  let q := x.queue ++ [r]
  if q.length = depth then Xacc.flush { x with queue := q } src else .ok { x with queue := q }

/-- `X.FINALIZE()` is `X.FLUSH()` (R164). -/
def Xacc.finalize (x : Xacc) (src : Sources) : Except Stop Xacc := x.flush src

/-- The final column has F bytes, not S: it bypasses the accumulator (R165). -/
def Xacc.addDirect (x : Xacc) (src : Sources) (c : Nat) : Except Stop Xacc :=
  (readOriginal src.mem src.window c).map fun b => { x with dest := bufAdd x.dest b (src.window.len c) }

/-- An overlay original that is not in the first pair (R165). -/
def Xacc.addOriginal (x : Xacc) (depth : Nat) (src : Sources) (c : Nat) : Except Stop Xacc :=
  if c = src.window.n - 1 then x.addDirect src c else x.add depth src (.original c)

/-- The selected cells of one lane (R165, R215). -/
def Xacc.addSelected (x : Xacc) (depth : Nat) (src : Sources) (l : Fin 8) (op : BitVec 6) (first : Nat) : Except Stop Xacc :=
  (List.finRange 3).foldlM (fun y (k : Fin 3) => if op.getLsbD (first + k.val) then y.add depth src (.cell l k) else .ok y) x

/-- Steps 2 and 3 work on the generator and the two accumulators (R160). -/
structure Batch where
  prng : Prng
  xs : Xacc
  xp : Xacc
  deriving DecidableEq, Repr

/-- Pair i of the overlay through the accumulators (R165). -/
def batchPair (cfg : Config) (src : Sources) (i : Nat) (b : Batch) : Except Stop Batch :=
  let (w1, g1) := b.prng.draw cfg
  let (w2, g2) := g1.draw cfg
  let e1 := columnOf w1 src.window.n
  let eRX := columnOf w2 src.window.n
  if i = 0 then
    (readOriginal src.mem src.window e1).bind fun x =>
      (readOriginal src.mem src.window eRX).map fun y =>
        { prng := g2
          xs := { b.xs with dest := bufCopyZt x (src.window.len e1) src.window.s }
          xp := { b.xp with dest := bufCopyZt y (src.window.len eRX) src.window.s } }
  else
    (b.xs.addOriginal cfg.xaccB src e1).bind fun x =>
      (b.xp.addOriginal cfg.xaccB src eRX).map fun y => { prng := g2, xs := x, xp := y }

/-- The first n pairs of step 2 through the accumulators. -/
def batchPairs (cfg : Config) (src : Sources) (b : Batch) : Nat → Except Stop Batch
  | 0 => .ok b
  | i + 1 => (batchPairs cfg src b i).bind (batchPair cfg src i)

/-- Step 3 through the accumulators: each lane's opcode on both (R165). -/
def batchMix (cfg : Config) (r : Word) (src : Sources) (b : Batch) : Except Stop Batch :=
  (List.finRange 8).foldlM
    (fun a (l : Fin 8) =>
      (a.xs.addSelected cfg.xaccB src l (cfg.rowOp l r) 0).bind fun x =>
        (a.xp.addSelected cfg.xaccB src l (cfg.rowOp l r) 3).map fun y => { a with xs := x, xp := y }) b

/-- Steps 2 and 3, and both FINALIZEs before the blend (R165). -/
def batchRun (cfg : Config) (r : Word) (src : Sources) (b : Batch) : Except Stop Batch :=
  if src.window.inAddressSpace then
    (batchPairs cfg src b (pairCount src.window.n)).bind fun b1 =>
      (batchMix cfg r src b1).bind fun b2 =>
        (b2.xs.finalize src).bind fun x => (b2.xp.finalize src).map fun y => { b2 with xs := x, xp := y }
  else .error (.refuse .pastAddressSpace)

/-- ENCODE carried out through the accumulators (R165), with the queues the engine holds. -/
def encodeBatchedWith (cfg : Config) (s : State) : Host.Outcome State Fault Refusal :=
  match s.bufs with
  | none => .next (s.setResult .invalidInput)
  | some b =>
    let r := s.operandRow
    let src : Sources := { mem := s.hmem, window := s.window b, lane := b.lane }
    let start : Batch :=
      { prng := Prng.seed r s.winN
        xs := { dest := b.sum, queue := s.engine.xs }
        xp := { dest := b.prod, queue := s.engine.xp } }
    continueWith (batchRun cfg r src start) fun e =>
      let acc := (e.xs.dest, e.xp.dest)
      let p := s.publish { b with sum := blend cfg r src.window.s acc, prod := acc.2 } r
      .next { p with engine := { p.engine with xs := e.xs.queue, xp := e.xp.queue } }

end Sys2Proof.Machine
end

