-- ==== Sys2Proof/Safety.lean ====
section
/-! DEFINITION. The terms claims use: the machine invariant (10_state.md R25 to R32, R26, R30), what the host must have set up
(70_reset_and_hazards.md R305, R306, R312), and the spec's closed forms of the results (10_state.md R27, 40_gf256.md R120,
44_encode.md R218), written from the spec and not from the commands' loops. -/

namespace Sys2Proof.Machine

/-! ### GF(256) as polynomials -/

/-- The carry-less product of two polynomials over GF(2), bit i the coefficient of x^i (R120). -/
def polyProduct (a b : Byte) : Nat :=
  (List.range 8).foldl (fun p i => if b.getLsbD i then p ^^^ (a.toNat <<< i) else p) 0

/-- The remainder modulo POLY of a polynomial of degree at most 14 (R120). -/
def polyReduce (p : Nat) : Nat :=
  [14, 13, 12, 11, 10, 9, 8].foldl (fun q i => if q.testBit i then q ^^^ (POLY <<< (i - 8)) else q) p

/-- `a^k`: the k-fold product, `a^0 = 1` (R13). -/
def gfPow (a : Byte) : Nat → Byte
  | 0 => 1
  | k + 1 => gfMul a (gfPow a k)

/-- The XOR of a list of bytes. -/
def xorAll (l : List Byte) : Byte := l.foldr (· ^^^ ·) 0

/-! ### The pointer table and the originals -/

/-- Every byte of pointer-table entry c can be read (R63, R73). -/
def entryReadable (m : Memory) (tab c : Nat) : Bool := (List.range 8).all fun j => (m.read (tab + 8 * c + j)).isSome

/-- Pointer-table entry c: the sum over j in 0..8 of `HMEM[tab + 8c + j] * 256^j` (R63). -/
def entryValue (m : Memory) (tab c : Nat) : Nat :=
  ((List.range 8).map fun j => ((m.read (tab + 8 * c + j)).getD 0).toNat * 256 ^ j).sum

/-- Every byte of original c can be read (R64, R312). -/
def Window.readable (w : Window) (m : Memory) (c : Nat) : Bool :=
  (List.range (w.len c)).all fun i => (origByte m w c i).isSome

/-- Byte i of `ORIG(c)`, as a byte (R65); claims use it only where it can be read. -/
def origByteD (m : Memory) (w : Window) (c i : Nat) : Byte := (origByte m w c i).getD 0

/-- `S = ceil(T / N)` as the operands of INIT give it (R182). -/
def State.initS (s : State) : Nat := (s.operandBytes + s.operandN - 1) / s.operandN

/-- `F = T - (N - 1) * S` (R182). -/
def State.initF (s : State) : Nat := s.operandBytes - (s.operandN - 1) * s.initS

/-- The operands pass phase 1 of INIT: N >= 1, T >= N and F >= 1 (R182, R183). -/
def State.ParametersValid (s : State) : Prop :=
  1 ≤ s.operandN ∧ s.operandN ≤ s.operandBytes ∧ (s.operandN - 1) * s.initS < s.operandBytes

/-- The Window INIT is to build: N, S, F and the entries of the table (R25, R26, R182, R63). -/
def State.initWindow (s : State) : Window where
  n := s.operandN
  s := s.initS
  f := s.initF
  ptr := (List.range s.operandN).map fun c => BitVec.ofNat 64 (entryValue s.hmem s.operandPtrtab c)

/-- The operands pass phase 2 of INIT: the table lies in the address space, and every entry can be read and is not null (R184). -/
def State.TableValid (s : State) : Prop :=
  s.operandPtrtab + 8 * s.operandN ≤ addressTop ∧
    ∀ c, c < s.operandN → entryReadable s.hmem s.operandPtrtab c = true ∧ entryValue s.hmem s.operandPtrtab c ≠ 0

/-- The host has laid the originals out: their regions lie in the address space and can be read (R64, R72, R305). -/
def State.OriginalsValid (s : State) : Prop :=
  ∀ c, c < s.operandN →
    entryValue s.hmem s.operandPtrtab c + s.initWindow.len c ≤ addressTop ∧ s.initWindow.readable s.hmem c = true

/-- INIT failed with result `r`: the released state with only RESULT changed (R265, R241). -/
def State.failed (s : State) (r : Result) : State :=
  { s with
    result := r
    symValid := false
    bufs := none
    winN := 0
    winS := 0
    winF := 0
    symRow := 0
    symBytes := 0
    symPtr := 0 }

/-! ### Closed forms -/

/-- The byte i of `LANE[l][k]` that R27 and R191 give: the XOR over the columns c of lane l of `CX(c)^k (*) ORIG(c)`. -/
def laneSumByte (cfg : Config) (m : Memory) (w : Window) (l : Fin 8) (k : Fin 3) (i : Nat) : Byte :=
  xorAll (((List.range w.n).filter fun c => c % 8 = l.val).map fun c => gfMul (gfPow (cfg.cx c) k.val) (origByteD m w c i))

/-- The lane table holds the lane sums of host memory as it stands (R27 with HMEM unchanged since INIT). -/
def LanesCurrent (cfg : Config) (m : Memory) (w : Window) (t : LaneTable) : Prop :=
  ∀ l k i, i < w.s → (laneCell t l k)[i]? = some (laneSumByte cfg m w l k i)

/-- Draw j of an ENCODE of row r on N originals, as a column (R147, R148). -/
def drawnColumn (cfg : Config) (r n : Word) (j : Nat) : Nat := columnOf (cfg.prng r n j) n.toNat

/-- The XOR over the pairs of `ORIG(e1_j)` (side 0) or `ORIG(eRX_j)` (side 1), byte i (R213, R218). -/
def overlayByte (cfg : Config) (m : Memory) (w : Window) (r n : Word) (side i : Nat) : Byte :=
  xorAll ((List.range (pairCount w.n)).map fun j => origByteD m w (drawnColumn cfg r n (2 * j + side)) i)

/-- The XOR of the cells of one lane that bits `first`, `first + 1`, `first + 2` of a row opcode select, byte i (R97). -/
def selectedByte (cells : Vector Buf 3) (op : BitVec 6) (first i : Nat) : Byte :=
  xorAll ((List.finRange 3).map fun (k : Fin 3) => if op.getLsbD (first + k.val) then ((cells.get k)[i]?).getD 0 else 0)

/-- The XOR over all lanes of the selected cells (R218). -/
def mixByte (cfg : Config) (r : Word) (t : LaneTable) (first i : Nat) : Byte :=
  xorAll ((List.finRange 8).map fun (l : Fin 8) => selectedByte (t.get l) (cfg.rowOp l r) first i)

/-- Byte i of the Product side of the closed form of R218. -/
def productByte (cfg : Config) (m : Memory) (w : Window) (t : LaneTable) (r n : Word) (i : Nat) : Byte :=
  overlayByte cfg m w r n 1 i ^^^ mixByte cfg r t 3 i

/-- Byte i of `symbol(r)` in the closed form of R218. -/
def symbolByte (cfg : Config) (m : Memory) (w : Window) (t : LaneTable) (r n : Word) (i : Nat) : Byte :=
  overlayByte cfg m w r n 0 i ^^^ mixByte cfg r t 0 i ^^^ gfMul (cfg.rx r) (productByte cfg m w t r n i)

/-- `m1(c)` (side 0) or `m2(c)` (side 1) of R218: 1 if column c is drawn an odd number of times on that side. -/
def oddDraws (cfg : Config) (r n : Word) (side c : Nat) : Byte :=
  if ((List.range (pairCount n.toNat)).countP fun j => drawnColumn cfg r n (2 * j + side) = c) % 2 = 1 then 1 else 0

/-- The polynomial `op[first] ^ op[first+1] (*) CX(c) ^ op[first+2] (*) CX(c)^2`, a bit read as the byte 0 or 1 (R218). -/
def opcodePoly (op : BitVec 6) (first : Nat) (cx : Byte) : Byte :=
  (if op.getLsbD first then 1 else 0) ^^^ (if op.getLsbD (first + 1) then cx else 0) ^^^
    (if op.getLsbD (first + 2) then gfSqr cx else 0)

/-- `coef(r, c)` (R218): it depends on (r, N, c) and the configuration only. -/
def coef (cfg : Config) (r n : Word) (c : Nat) : Byte :=
  let op := cfg.rowOp (laneOf c) r
  oddDraws cfg r n 0 c ^^^ opcodePoly op 0 (cfg.cx c) ^^^
    gfMul (cfg.rx r) (oddDraws cfg r n 1 c ^^^ opcodePoly op 3 (cfg.cx c))

/-! ### The invariant -/

/-- The owned buffers of a READY block are as R25 to R28 say. -/
structure State.BuffersOk (cfg : Config) (s : State) (b : Buffers) : Prop where
  n_pos : 1 ≤ s.winN.toNat
  n_le : s.winN.toNat ≤ cfg.nmax
  s_pos : 1 ≤ s.winS.toNat
  s_le : s.winS.toNat ≤ cfg.smax
  f_pos : 1 ≤ s.winF.toNat
  f_le : s.winF.toNat ≤ s.winS.toNat
  ptr_length : b.ptr.length = s.winN.toNat
  ptr_ne_zero : ∀ p, p ∈ b.ptr → p ≠ 0
  regions : (s.window b).inAddressSpace = true
  cell_length : ∀ l k, (laneCell b.lane l k).length = s.winS.toNat
  empty_lane : ∀ (l : Fin 8) (k : Fin 3), s.winN.toNat ≤ l.val → laneCell b.lane l k = zeroBuf s.winS.toNat
  sum_length : b.sum.length = s.winS.toNat
  prod_length : b.prod.length = s.winS.toNat

/-- The machine invariant: host memory is canonical; READY = 0 implies WIN_*, SYM_* and SYMVALID are 0 (R30); a READY block has its
buffers (R25 to R28); the SYM registers describe the published symbol or are 0 (R29); the engine is at rest (R31, R32). -/
structure State.Inv (cfg : Config) (s : State) : Prop where
  memory : s.hmem.wf = true
  idle : s.bufs = none → s.winN = 0 ∧ s.winS = 0 ∧ s.winF = 0 ∧ s.symValid = false
  buffers : ∀ b, s.bufs = some b → s.BuffersOk cfg b
  no_symbol : s.symValid = false → s.symRow = 0 ∧ s.symBytes = 0 ∧ s.symPtr = 0
  symbol : s.symValid = true → s.symBytes = s.winS ∧ s.symPtr = BitVec.ofNat 32 apertureBase
  rest : s.engine.prng = none ∧ s.engine.lane = 0 ∧ s.engine.xs = [] ∧ s.engine.xp = []

/-- The originals an ENCODE of the block's row draws can be read (R68, R306, R312). -/
def State.DrawnReadable (cfg : Config) (s : State) (b : Buffers) : Prop :=
  ∀ j, j < 2 * pairCount s.winN.toNat →
    (s.window b).readable s.hmem (drawnColumn cfg s.operandRow s.winN j) = true

/-- A step that is safe: it ends in a next state. -/
def State.Goes (s : State) : Prop := ∃ t, step s = .next t

/-- The registers the host may write (R22). -/
def Reg.isArg : Reg → Bool
  | .argN => true
  | .argRow => true
  | .argBytesLo => true
  | .argBytesHi => true
  | .argPtrtabLo => true
  | .argPtrtabHi => true
  | .cmd => false
  | .status => false
  | .winN => false
  | .winS => false
  | .winF => false
  | .symRow => false
  | .symBytes => false
  | .symPtr => false

/-- The next step makes the host's move `m`, and `q` is what is left of the host's moves after it. -/
def State.NextMove (s : State) (m : HostMove) (q : List HostMove) : Prop := s.engine.rowop = none ∧ s.queue = m :: q

end Sys2Proof.Machine
end

