-- ==== Sys2Proof/Certificates/Slice0/Obligations.lean ====
section
/-! DEFINITION. The statements for the provers. Rule numbers are those of spec/; OBLIGATIONS.json says what each claims. -/

open Sys2Proof Sys2Proof.Machine

/-! ### Encoding -/

/-- Decoding the encoding of a well-formed instruction gives the instruction back. -/
def Obligations.DecodeEncodeWellFormed : Prop := ∀ i : Instr, i.WellFormed → decode (encode i) = i

/-- Every item is the encoding of the instruction it decodes to, which is well formed: each word has one meaning. -/
def Obligations.EncodeDecodeEveryItem : Prop := ∀ it : Item, (decode it).WellFormed ∧ encode (decode it) = it

/-- A word selects a command exactly when it equals that command's match value. -/
def Obligations.CommandSelectedByWholeWord : Prop :=
  ∀ w : Word,
    (decode (.cmd32 w) = .init ↔ w = 0x00000001#32) ∧
    (decode (.cmd32 w) = .encode ↔ w = 0x00000002#32) ∧
    (decode (.cmd32 w) = .free ↔ w = 0x00000003#32)

/-- R93: the illegal words, by value and by field, and what they do. -/
def Obligations.OtherWordsAreIllegal : Prop :=
  ∀ w : Word,
    (decode (.cmd32 w) = .illegal w ↔ w ≠ 0x00000001#32 ∧ w ≠ 0x00000002#32 ∧ w ≠ 0x00000003#32) ∧
    (decode (.cmd32 w) = .illegal w ↔
      w.toNat % 256 = 0 ∨ 4 ≤ w.toNat % 256 ∨ w.toNat / 256 ≠ 0) ∧
    (decode (.cmd32 w) = .illegal w →
      ∀ s : State, exec (decode (.cmd32 w)) s = .next { s with result := .invalidInput })

/-- The CMD32 words and the ROWOP6 values of 95_test_vectors.md section 2.2, all of them, decode as its tables say. -/
def Obligations.SpecWordsDecode : Prop :=
  decodeTableWord 32 0x00000001 = some .init ∧
  decodeTableWord 32 0x00000002 = some .encode ∧
  decodeTableWord 32 0x00000003 = some .free ∧
  decodeTableWord 32 0x00000000 = some (.illegal 0x00000000#32) ∧
  decodeTableWord 32 0x00000004 = some (.illegal 0x00000004#32) ∧
  decodeTableWord 32 0x000000FF = some (.illegal 0x000000FF#32) ∧
  decodeTableWord 32 0x00000102 = some (.illegal 0x00000102#32) ∧
  decodeTableWord 32 0x80000001 = some (.illegal 0x80000001#32) ∧
  decodeTableWord 32 0xFFFFFFFF = some (.illegal 0xFFFFFFFF#32) ∧
  decodeTableWord 8 0x00 = some (.rowop 0b000000#6) ∧
  decodeTableWord 8 0x01 = some (.rowop 0b000001#6) ∧
  decodeTableWord 8 0x09 = some (.rowop 0b001001#6) ∧
  decodeTableWord 8 0x2A = some (.rowop 0b101010#6) ∧
  decodeTableWord 8 0x38 = some (.rowop 0b111000#6) ∧
  decodeTableWord 8 0x3F = some (.rowop 0b111111#6) ∧
  decodeTableWord 8 0x47 = some (.rowop 0b000111#6)

/-! ### The step -/

/-- A step runs the decoded instruction: the word of the host's write to CMD, at offset 0x000, with that move taken; or the row opcode in the slot, with the
slot cleared. An item placed by withFetchWord is what the next step runs. Every move of the host other than a CMD write is made
as Bus.lean says. -/
def Obligations.StepRunsDecodedInstruction : Prop :=
  (∀ w : Word, hostW .cmd w = .write .word 0x000 w) ∧
  (∀ (s : State) (w : Word) (q : List HostMove), s.NextMove (hostW .cmd w) q → (decode (.cmd32 w)).WellFormed →
    step s = exec (decode (.cmd32 w)) { s with queue := q }) ∧
  (∀ (s : State) (op : BitVec 6), s.engine.rowop = some op →
    step s = exec (decode (.rowop6 op)) { s with engine := { s.engine with rowop := none } }) ∧
  (∀ (s : State) (w : Word),
    step (s.withFetchWord 32 w.toNat) = exec (decode (.cmd32 w)) { s with engine := { s.engine with rowop := none } }) ∧
  (∀ (s : State) (op : BitVec 6),
    step (s.withFetchWord 8 op.toNat) = exec (.rowop op) { s with engine := { s.engine with rowop := none } }) ∧
  (∀ (s : State) (m : HostMove) (q : List HostMove), s.NextMove m q → (∀ w, m ≠ hostW .cmd w) →
    step s = hostMove config m { s with queue := q })

/-- R280: an idle block holds its state for any number of steps. -/
def Obligations.IdleBlockHoldsState : Prop :=
  ∀ (s : State) (n : Nat), s.engine.rowop = none → s.queue = [] → Host.Core.run core n s = .next s

/-! ### Reset and the invariant -/

/-- R34: the value of every piece of state after reset. WIN.PTR, LANE, SUM and PROD are unallocated, aperture bytes read as any value,
ENCODE returns InvalidInput, and the registers that the host cannot write are as after a FREE. -/
def Obligations.ResetValues : Prop :=
  (∀ r : Reg, State.reset.readReg r = 0) ∧ State.reset.result = .success ∧ State.reset.ready = false ∧
  State.reset.symValid = false ∧ State.reset.bufs = none ∧ State.reset.engine.prng = none ∧
  State.reset.engine.xs = [] ∧ State.reset.engine.xp = [] ∧
  exec .encode State.reset = .next { State.reset with result := .invalidInput } ∧
  (∀ i, i < config.smax → ∃ (v : Byte) (k : Nat),
    hostMove config (hostRB i) State.reset = .next { State.reset with readData := v.setWidth 32, freeIx := k }) ∧
  ∀ s t : State, exec .free s = .next t →
    ∀ r : Reg, r.isArg = false → t.readReg r = State.reset.readReg r

/-- R301: reset leaves host memory as it is and reads none of it, from any state. The block's own state is then that of R34 (R300):
ENCODE is InvalidInput and FREE is Success. -/
def Obligations.ResetFromAnyState : Prop :=
  ∀ (s : State) (q : List HostMove), s.NextMove .reset q →
    ∃ t, step s = .next t ∧ t.hmem = s.hmem ∧
      { t with hmem := [], queue := [], readData := 0, freeIx := 0 } = State.reset ∧
      (∀ m : Memory, step { s with hmem := m } = .next { t with hmem := m }) ∧
      exec .encode t = .next { t with result := .invalidInput } ∧ exec .free t = .next t

/-- The reset state meets the machine invariant. -/
def Obligations.ResetMeetsMachineInvariant : Prop := State.reset.Inv config

/-- Every step, from every state that meets the machine invariant, keeps it. -/
def Obligations.StepKeepsMachineInvariant : Prop :=
  ∀ s t : State, s.Inv config → step s = .next t → t.Inv config

/-! ### GF(256) -/

/-- R120, R121: gf_mul is the product of polynomials modulo POLY, with the corner cases and the examples of R121. -/
def Obligations.GfMulIsPolynomialProduct : Prop :=
  (∀ a b : Byte, gfMul a b = BitVec.ofNat 8 (polyReduce (polyProduct a b)) ∧ polyReduce (polyProduct a b) < 256) ∧
  (∀ b : Byte, gfMul 0 b = 0 ∧ gfMul b 0 = 0 ∧ gfMul 1 b = b) ∧
  (∀ a b : Byte, a ≠ 0 → b ≠ 0 → gfMul a b ≠ 0) ∧
  (∀ a b : Byte, gfMul a b = gfMul b a) ∧
  gfMul 0x57#8 0x83#8 = 0xC1#8 ∧ gfMul 0x02#8 0x80#8 = 0x1B#8

/-- R128: multiplication by a byte is linear, on both sides, and associative. -/
def Obligations.GfMulLinear : Prop :=
  ∀ a b c x y : Byte,
    gfMul c (x ^^^ y) = gfMul c x ^^^ gfMul c y ∧
    gfMul (a ^^^ b) x = gfMul a x ^^^ gfMul b x ∧
    gfMul a (gfMul b x) = gfMul (gfMul a b) x

/-- R123: squaring. -/
def Obligations.GfSquareAdditiveBijection : Prop :=
  (∀ c : Byte, gfSqr c = gfMul c c) ∧ gfSqr 0 = 0 ∧ gfSqr 1 = 1 ∧
  (∀ a b : Byte, gfSqr (a ^^^ b) = gfSqr a ^^^ gfSqr b) ∧ Function.Bijective gfSqr ∧ (∀ c : Byte, c ≠ 0 → gfSqr c ≠ 0) ∧
  gfSqr 0x02#8 = 0x04#8 ∧ gfSqr 0x10#8 = 0x1B#8 ∧ gfSqr 0x57#8 = 0xA5#8

/-- The corner cases of the buffer primitives: n = 0 changes nothing, adding twice restores, c = 0 leaves, c = 1 adds, and the
zero-tailed copy followed by an add of the same source is zero. -/
def Obligations.BufferPrimitiveCorners : Prop :=
  ∀ (dst src : Buf) (c : Byte) (n S : Nat),
    bufAdd dst src 0 = dst ∧ bufAdd (bufAdd dst src n) src n = dst ∧
    bufMuladd dst 0 src n = dst ∧ bufMuladd dst 1 src n = bufAdd dst src n ∧
    (n ≤ S → n ≤ src.length → bufAdd (bufCopyZt src n S) src n = zeroBuf S) ∧
    (∀ i, n ≤ i → (bufMuladd dst c src n)[i]? = dst[i]?)

/-! ### INIT -/

/-- INIT completes wherever its checks pass and the originals can be read; what it writes (R190), the lane sums it leaves (R191), and
its frame. SUM and PROD hold S bytes of whatever value. -/
def Obligations.InitCompletes : Prop :=
  ∀ s : State, s.ParametersValid → s.TableValid → s.operandN ≤ config.nmax → s.initS ≤ config.smax → s.OriginalsValid →
    ∃ (lane : LaneTable) (sum prod : Buf) (k : Nat),
      exec .init s = .next
        { s with
          result := .success
          symValid := false
          winN := s.argN
          winS := BitVec.ofNat 32 s.initS
          winF := BitVec.ofNat 32 s.initF
          symRow := 0
          symBytes := 0
          symPtr := 0
          bufs := some { ptr := s.initWindow.ptr, lane := lane, sum := sum, prod := prod }
          freeIx := k } ∧
      (BitVec.ofNat 32 s.initS).toNat = s.initS ∧ (BitVec.ofNat 32 s.initF).toNat = s.initF ∧
      1 ≤ s.initF ∧ s.initF ≤ s.initS ∧
      sum.length = s.initS ∧ prod.length = s.initS ∧ (∀ l k, (laneCell lane l k).length = s.initS) ∧
      LanesCurrent config s.hmem s.initWindow lane

/-- R183: which (N, T) are valid, with T = q * N + r, and what INIT does with F < 1. -/
def Obligations.ParametersByQuotient : Prop :=
  (∀ N q r : Nat, r < N → N ≤ q * N + r →
    setParameters N (q * N + r) =
      if r = 0 then some (q, q) else if N ≤ q + r then some (q + 1, q + r + 1 - N) else none) ∧
  (∀ s : State, 1 ≤ s.operandN → s.operandN ≤ s.operandBytes →
    (s.operandBytes : Int) - ((s.operandN : Int) - 1) * (s.initS : Int) < 1 → exec .init s = .next (s.failed .invalidInput))

/-- Phase 1 of INIT fails with InvalidInput on every other pair of operands; the pointer table is not read. -/
def Obligations.InitRejectsParameters : Prop :=
  ∀ (s : State) (m : Memory), ¬ s.ParametersValid →
    exec .init s = .next (s.failed .invalidInput) ∧
    exec .init { s with hmem := m } = .next { s.failed .invalidInput with hmem := m }

/-- Phase 2 of INIT fails with InvalidInput at the first null entry; the entries after it are not read. -/
def Obligations.InitRejectsNullPointer : Prop :=
  ∀ (s : State) (c : Nat), s.ParametersValid → s.operandPtrtab + 8 * s.operandN ≤ addressTop → c < s.operandN →
    (∀ d, d < c → entryReadable s.hmem s.operandPtrtab d = true ∧ entryValue s.hmem s.operandPtrtab d ≠ 0) →
    entryReadable s.hmem s.operandPtrtab c = true → entryValue s.hmem s.operandPtrtab c = 0 →
    exec .init s = .next (s.failed .invalidInput)

/-- R186: allocation succeeds exactly when N <= NMAX and S <= SMAX. -/
def Obligations.InitCapacity : Prop :=
  ∀ s : State, s.ParametersValid → s.TableValid →
    (¬ (s.operandN ≤ config.nmax ∧ s.initS ≤ config.smax) → exec .init s = .next (s.failed .outOfMemory)) ∧
    (s.operandN ≤ config.nmax ∧ s.initS ≤ config.smax → s.OriginalsValid →
      ∃ t, exec .init s = .next t ∧ t.result = .success ∧ t.ready = true)

/-- R265: INIT succeeds whole or leaves the released state with its failure code, after which ENCODE is InvalidInput. -/
def Obligations.InitAllOrNothing : Prop :=
  ∀ s t : State, exec .init s = .next t →
    (t.result = .success ∧ t.ready = true ∧ t.symValid = false) ∨
    (t.result ≠ .success ∧ t = s.failed t.result ∧ exec .encode t = .next { t with result := .invalidInput })

/-- R181: INIT on any block is FREE followed by INIT, and an INIT that fails leaves the released block with its failure code. -/
def Obligations.InitIsFreeThenInit : Prop :=
  ∀ s t : State, exec .free s = .next t →
    exec .init t = exec .init s ∧
    ∀ u, exec .init s = .next u → u.result ≠ .success →
      u = { t with result := u.result } ∧ exec .encode u = .next { u with result := .invalidInput }

/-- A byte of the pointer table, or of an original that a command reads, that cannot be read stops the command with a fault (R73).
That the fault names the first such byte in the order of the pseudocode is the model's choice: log 12. -/
def Obligations.CommandsFaultOnUnreadableByte : Prop :=
  (∀ (s : State) (c j : Nat), s.ParametersValid → s.operandPtrtab + 8 * s.operandN ≤ addressTop → c < s.operandN →
    (∀ d, d < c → entryReadable s.hmem s.operandPtrtab d = true ∧ entryValue s.hmem s.operandPtrtab d ≠ 0) → j < 8 →
    (∀ i, i < j → (s.hmem.read (s.operandPtrtab + 8 * c + i)).isSome = true) →
    s.hmem.read (s.operandPtrtab + 8 * c + j) = none →
    exec .init s = .fault (.unreadable (s.operandPtrtab + 8 * c + j))) ∧
  (∀ (s : State) (c : Nat), s.ParametersValid → s.TableValid → s.operandN ≤ config.nmax → s.initS ≤ config.smax →
    s.initWindow.inAddressSpace = true → c < s.operandN → (∀ d, d < c → s.initWindow.readable s.hmem d = true) →
    s.initWindow.readable s.hmem c = false →
    ∃ i, i < s.initWindow.len c ∧ s.hmem.read (entryValue s.hmem s.operandPtrtab c + i) = none ∧
      exec .init s = .fault (.unreadable (entryValue s.hmem s.operandPtrtab c + i))) ∧
  (∀ (s : State) (b : Buffers) (j : Nat), s.Inv config → s.bufs = some b → j < 2 * pairCount s.winN.toNat →
    (∀ k, k < j → (s.window b).readable s.hmem (drawnColumn config s.operandRow s.winN k) = true) →
    (s.window b).readable s.hmem (drawnColumn config s.operandRow s.winN j) = false →
    ∃ i p, b.ptr[drawnColumn config s.operandRow s.winN j]? = some p ∧
      i < (s.window b).len (drawnColumn config s.operandRow s.winN j) ∧ s.hmem.read (p.toNat + i) = none ∧
      exec .encode s = .fault (.unreadable (p.toNat + i)))

/-- R72: a pointer table or a region of an original that would run past 2^64 refuses INIT, on a block of any configuration
(a region can pass 2^64 only where SMAX is at least 2). -/
def Obligations.InitRefusedPastAddressSpace : Prop :=
  ∀ (cfg : Config) (s : State), s.ParametersValid →
    exec .init s = initWith config s ∧
    (addressTop < s.operandPtrtab + 8 * s.operandN → initWith cfg s = .refused .pastAddressSpace) ∧
    (s.TableValid → s.operandN ≤ cfg.nmax → s.initS ≤ cfg.smax →
      (∃ c, c < s.operandN ∧ addressTop < entryValue s.hmem s.operandPtrtab c + s.initWindow.len c) →
      initWith cfg s = .refused .pastAddressSpace)

/-! ### ENCODE -/

/-- ENCODE completes on every READY block whose drawn originals can be read: SUM and PROD byte by byte, what it publishes (R217), and
everything it leaves alone (R219). -/
def Obligations.EncodeCompletes : Prop :=
  ∀ (s : State) (b : Buffers), s.Inv config → s.bufs = some b → s.DrawnReadable config b →
    ∃ sum prod : Buf,
      exec .encode s = .next
        { s with
          result := .success
          symValid := true
          symRow := s.argRow
          symBytes := s.winS
          symPtr := 0x1000#32
          bufs := some { b with sum := sum, prod := prod } } ∧
      sum.length = s.winS.toNat ∧ prod.length = s.winS.toNat ∧
      (∀ i, i < s.winS.toNat →
        sum[i]? = some (symbolByte config s.hmem (s.window b) b.lane s.argRow s.winN i) ∧
        prod[i]? = some (productByte config s.hmem (s.window b) b.lane s.argRow s.winN i))

/-- R211, R264: ENCODE on a block that is not READY. -/
def Obligations.EncodeNotReady : Prop :=
  ∀ s : State, s.ready = false → exec .encode s = .next { s with result := .invalidInput }

/-- R218: the symbol in closed form, and as the combination of the originals with the coefficients `coef(r, c)` where the lane table
holds the lane sums of host memory as it stands. -/
def Obligations.SymbolClosedForm : Prop :=
  ∀ (s : State) (b : Buffers), s.Inv config → s.bufs = some b → s.DrawnReadable config b →
    ∃ (t : State) (b' : Buffers), exec .encode s = .next t ∧ t.bufs = some b' ∧
      (∀ i, i < s.winS.toNat → b'.sum[i]? = some (symbolByte config s.hmem (s.window b) b.lane s.argRow s.winN i)) ∧
      (LanesCurrent config s.hmem (s.window b) b.lane →
        ∀ i, i < s.winS.toNat → b'.sum[i]? = some
          (xorAll ((List.range s.winN.toNat).map fun c =>
            gfMul (coef config s.argRow s.winN c) (origByteD s.hmem (s.window b) c i))))

/-- R220: encoding again gives the same bytes, and neither the earlier contents of SUM and PROD nor the symbol published before
enter the result. -/
def Obligations.EncodeDeterministic : Prop :=
  (∀ s t : State, s.Inv config → exec .encode s = .next t → exec .encode t = .next t) ∧
  (∀ (s : State) (b : Buffers) (sum prod : Buf) (row bytes ptr : Word) (v : Bool) (r : Result),
    s.Inv config → s.bufs = some b →
    exec .encode
      { s with
        bufs := some { b with sum := sum, prod := prod }
        symRow := row
        symBytes := bytes
        symPtr := ptr
        symValid := v
        result := r } = exec .encode s)

/-- R221: two blocks initialised with equal (N, total_bytes) and originals of equal bytes, at whatever addresses, publish equal
bytes for equal rows. -/
def Obligations.CrossInstanceAgreement : Prop :=
  ∀ s1 s2 t1 t2 u1 u2 : State,
    exec .init s1 = .next t1 → exec .init s2 = .next t2 → t1.ready = true → t2.ready = true →
    s1.operandN = s2.operandN → s1.operandBytes = s2.operandBytes → s1.argRow = s2.argRow →
    (∀ c i, c < s1.operandN → i < s1.initS →
      origByte s1.hmem s1.initWindow c i = origByte s2.hmem s2.initWindow c i) →
    exec .encode t1 = .next u1 → exec .encode t2 = .next u2 →
    ∃ b1 b2, u1.bufs = some b1 ∧ u2.bufs = some b2 ∧ b1.sum = b2.sum

/-- R222: the symbol of A XOR B is the XOR of the symbols of A and of B. -/
def Obligations.EncodeLinear : Prop :=
  ∀ sA sB sC tA tB tC uA uB uC : State,
    exec .init sA = .next tA → exec .init sB = .next tB → exec .init sC = .next tC →
    tA.ready = true → tB.ready = true → tC.ready = true →
    sA.operandN = sC.operandN → sB.operandN = sC.operandN →
    sA.operandBytes = sC.operandBytes → sB.operandBytes = sC.operandBytes →
    sA.argRow = sC.argRow → sB.argRow = sC.argRow →
    (∀ c i, c < sC.operandN → i < sC.initS →
      origByteD sC.hmem sC.initWindow c i =
        origByteD sA.hmem sA.initWindow c i ^^^ origByteD sB.hmem sB.initWindow c i) →
    exec .encode tA = .next uA → exec .encode tB = .next uB → exec .encode tC = .next uC →
    ∃ bA bB bC, uA.bufs = some bA ∧ uB.bufs = some bB ∧ uC.bufs = some bC ∧
      bC.sum = List.zipWith (· ^^^ ·) bA.sum bB.sum

/-- R223: all-zero originals give the all-zero symbol. -/
def Obligations.ZeroPreservation : Prop :=
  ∀ s t u : State, exec .init s = .next t → t.ready = true →
    (∀ c i, c < s.operandN → i < s.initS → origByte s.hmem s.initWindow c i = some 0) →
    exec .encode t = .next u →
    ∃ b, u.bufs = some b ∧ b.sum = zeroBuf s.initS

/-- R68: the bytes of host memory each command reads, and no others: host memory may be anything elsewhere. INIT reads the entries of
the table up to the first null one, if its parameters pass, and the originals if it comes to the lane sums; ENCODE reads the
originals it draws; FREE and ILLEGAL read none. -/
def Obligations.CommandsReadOnlyTheirRegions : Prop :=
  (∀ (s t : State) (m : Memory), exec .init s = .next t →
    (∀ c j, s.ParametersValid → c < s.operandN → (∀ d, d < c → entryValue s.hmem s.operandPtrtab d ≠ 0) → j < 8 →
      m.read (s.operandPtrtab + 8 * c + j) = s.hmem.read (s.operandPtrtab + 8 * c + j)) →
    (∀ c i, t.ready = true → c < s.operandN → i < s.initWindow.len c →
      m.read (entryValue s.hmem s.operandPtrtab c + i) = s.hmem.read (entryValue s.hmem s.operandPtrtab c + i)) →
    exec .init { s with hmem := m } = .next { t with hmem := m }) ∧
  (∀ (s t : State) (b : Buffers) (m : Memory), s.bufs = some b → exec .encode s = .next t →
    (∀ j i, j < 2 * pairCount s.winN.toNat →
      i < (s.window b).len (drawnColumn config s.operandRow s.winN j) →
      origByte m (s.window b) (drawnColumn config s.operandRow s.winN j) i =
        origByte s.hmem (s.window b) (drawnColumn config s.operandRow s.winN j) i) →
    exec .encode { s with hmem := m } = .next { t with hmem := m }) ∧
  (∀ (s t : State) (m : Memory) (w : Word),
    (s.ready = false → exec .encode s = .next t → exec .encode { s with hmem := m } = .next { t with hmem := m }) ∧
    (exec .free s = .next t → exec .free { s with hmem := m } = .next { t with hmem := m }) ∧
    (exec (.illegal w) s = .next t → exec (.illegal w) { s with hmem := m } = .next { t with hmem := m }))

/-- R224: changing the S - F bytes after the final original, where they are no byte of the table or of an original, changes no symbol,
on a block of any configuration (a tail exists only where SMAX is at least 2). -/
def Obligations.FinalColumnTailIsolation : Prop :=
  ∀ (cfg : Config) (s t u : State) (m : Memory), initWith cfg s = .next t → t.ready = true → encodeWith cfg t = .next u →
    (∀ a, m.read a ≠ s.hmem.read a →
      (entryValue s.hmem s.operandPtrtab (s.operandN - 1) + s.initF ≤ a ∧
        a < entryValue s.hmem s.operandPtrtab (s.operandN - 1) + s.initS) ∧
      ¬ (s.operandPtrtab ≤ a ∧ a < s.operandPtrtab + 8 * s.operandN) ∧
      ∀ c, c < s.operandN →
        ¬ (entryValue s.hmem s.operandPtrtab c ≤ a ∧
          a < entryValue s.hmem s.operandPtrtab c + s.initWindow.len c)) →
    initWith cfg { s with hmem := m } = .next { t with hmem := m } ∧
    encodeWith cfg { t with hmem := m } = .next { u with hmem := m }

/-- R226: with one original the symbol is the original times one scalar. -/
def Obligations.SingleOriginalIsScaled : Prop :=
  ∀ (s : State) (b : Buffers), s.Inv config → s.bufs = some b → s.winN = 1 → (s.window b).readable s.hmem 0 = true →
    LanesCurrent config s.hmem (s.window b) b.lane →
    ∃ (t : State) (b' : Buffers), exec .encode s = .next t ∧ t.bufs = some b' ∧
      ∀ i, i < s.winS.toNat → b'.sum[i]? = some
        (gfMul
          (1 ^^^ opcodePoly (config.rowOp 0 s.argRow) 0 (config.cx 0) ^^^
            gfMul (config.rx s.argRow) (1 ^^^ opcodePoly (config.rowOp 0 s.argRow) 3 (config.cx 0)))
          (origByteD s.hmem (s.window b) 0 i))

/-- What a command can stop on: a byte of host memory that cannot be read, and for INIT alone a region past 2^64. -/
def Obligations.CommandsStopOnlyOnHostMemory : Prop :=
  ∀ (i : Instr) (s : State), s.Inv config →
    (∀ f, exec i s = .fault f → (i = .init ∨ i = .encode) ∧ ∃ a, f = .unreadable a ∧ s.hmem.read a = none) ∧
    (∀ r, exec i s = .refused r → i = .init ∧ r = .pastAddressSpace ∧ s.ParametersValid ∧
      (addressTop < s.operandPtrtab + 8 * s.operandN ∨
        ∃ c, c < s.operandN ∧ addressTop < entryValue s.hmem s.operandPtrtab c + s.initWindow.len c))

/-! ### The XOR accumulators -/

/-- R164: after FINALIZE the destination equals its initial contents with every submitted source added, whatever the depth. -/
def Obligations.AccumulatorContract : Prop :=
  ∀ (src : Sources) (depth : Nat) (x : Xacc) (refs : List SrcRef) (bytes : SrcRef → Buf),
    1 ≤ depth → x.queue = [] →
    (∀ r, r ∈ refs → src.bytes r = .ok (bytes r) ∧ (bytes r).length = src.window.s) →
    ∃ y : Xacc,
      (refs.foldlM (fun (z : Xacc) r => z.add depth src r) x).bind (fun z => z.finalize src) = .ok y ∧ y.queue = [] ∧
      y.dest = refs.foldl (fun d r => bufAdd d (bytes r) src.window.s) x.dest

/-- R166: for every depth, an ENCODE carried out through the accumulators leaves exactly the state the sequential one leaves. -/
def Obligations.AccumulatorsRefineSequential : Prop :=
  ∀ (cfg : Config) (s t : State), cfg.Legal → s.Inv cfg → (encodeBatchedWith cfg s = .next t ↔ encodeWith cfg s = .next t)

/-! ### FREE, ILLEGAL, ROWOP -/

/-- R240, R241: FREE on any block, and FREE twice. -/
def Obligations.FreeReleases : Prop :=
  ∀ s : State,
    exec .free s = .next
      { s with
        result := .success
        symValid := false
        bufs := none
        winN := 0
        winS := 0
        winF := 0
        symRow := 0
        symBytes := 0
        symPtr := 0 } ∧
    (∀ t, exec .free s = .next t → t.ready = false ∧ exec .free t = .next t) ∧
    (s.Inv config → s.ready = false → exec .free s = .next { s with result := .success })

/-- R244, R266: ILLEGAL records InvalidInput and changes nothing else, so that a published symbol stays valid. -/
def Obligations.IllegalOnlyRecords : Prop :=
  ∀ (w : Word) (s : State), exec (.illegal w) s = .next { s with result := .invalidInput }

/-- R97: a row opcode adds to SUM the cells of its lane that bits 0 to 2 select and to PROD those that bits 3 to 5 select, and changes
nothing else; bits above bit 5 of the fetched value are ignored. -/
def Obligations.RowopMixesLane : Prop :=
  (∀ (s : State) (b : Buffers) (op : BitVec 6), s.bufs = some b → s.BuffersOk config b →
    ∃ sum prod : Buf,
      exec (.rowop op) s = .next { s with bufs := some { b with sum := sum, prod := prod } } ∧
      sum.length = b.sum.length ∧ prod.length = b.prod.length ∧
      ∀ i, i < s.winS.toNat →
        sum[i]? = b.sum[i]?.map (· ^^^ selectedByte (b.lane.get s.engine.lane) op 0 i) ∧
        prod[i]? = b.prod[i]?.map (· ^^^ selectedByte (b.lane.get s.engine.lane) op 3 i)) ∧
  (∀ v : Nat, decodeTableWord 8 v = decodeTableWord 8 (v % 64))

/-- A row opcode on a block without buffers changes nothing. The model's choice: log 5. -/
def Obligations.RowopWithoutBuffers : Prop :=
  ∀ (s : State) (op : BitVec 6), s.bufs = none → exec (.rowop op) s = .next s

/-- Step 3 of ENCODE is the eight row opcodes, each executed as ROWOP with its own lane, in lane order (R215). -/
def Obligations.MixingIsEightRowops : Prop :=
  ∀ (s : State) (b : Buffers) (r : Word), s.bufs = some b →
    (List.finRange 8).foldl
      (fun (o : Host.Outcome State Fault Refusal) (l : Fin 8) =>
        match o with
        | .next u => exec (.rowop (config.rowOp l r)) { u with engine := { u.engine with lane := l } }
        | .fault f => .fault f
        | .refused x => .refused x)
      (.next s) =
    .next
      { s with
        bufs := some
          { b with
            sum := (mix config r b.lane s.winS.toNat (b.sum, b.prod)).1
            prod := (mix config r b.lane s.winS.toNat (b.sum, b.prod)).2 }
        engine := { s.engine with lane := 7 } }

/-! ### Registers, aperture, host moves -/

/-- R22: a host write to an ARG register, at its offset in R21's table, stores all 32 bits, which a read then returns, and changes no other register and no other
state; the reset value is 0; no command writes it; and how the registers are combined into operands. -/
def Obligations.ArgRegistersStoreWrites : Prop :=
  (∀ (s : State) (v : Word) (q : List HostMove),
    (s.NextMove (.write .word 0x008 v) q → step s = .next { s with queue := q, argN := v }) ∧
    (s.NextMove (.write .word 0x00C v) q → step s = .next { s with queue := q, argRow := v }) ∧
    (s.NextMove (.write .word 0x010 v) q → step s = .next { s with queue := q, argBytesLo := v }) ∧
    (s.NextMove (.write .word 0x014 v) q → step s = .next { s with queue := q, argBytesHi := v }) ∧
    (s.NextMove (.write .word 0x018 v) q → step s = .next { s with queue := q, argPtrtabLo := v }) ∧
    (s.NextMove (.write .word 0x01C v) q → step s = .next { s with queue := q, argPtrtabHi := v })) ∧
  (∀ (s : State) (r : Reg) (v : Word) (q : List HostMove), r.isArg = true → s.NextMove (hostW r v) q →
    ∃ t, step s = .next t ∧ t.readReg r = v ∧ (∀ r', r' ≠ r → t.readReg r' = s.readReg r') ∧
      t.result = s.result ∧ t.symValid = s.symValid ∧ t.bufs = s.bufs ∧ t.engine = s.engine ∧ t.hmem = s.hmem ∧
      t.queue = q ∧ t.readData = s.readData ∧ t.freeIx = s.freeIx) ∧
  (∀ r : Reg, r.isArg = true → State.reset.readReg r = 0) ∧
  (∀ (i : Instr) (s t : State) (r : Reg), r.isArg = true → exec i s = .next t → t.readReg r = s.readReg r) ∧
  ∀ s : State,
    s.operandN = (s.readReg .argN).toNat ∧ s.operandRow = s.readReg .argRow ∧
    s.operandBytes = (s.readReg .argBytesHi).toNat * 2 ^ 32 + (s.readReg .argBytesLo).toNat ∧
    s.operandPtrtab = (s.readReg .argPtrtabHi).toNat * 2 ^ 32 + (s.readReg .argPtrtabLo).toNat

/-- R35: a write to a read-only register, a reserved offset or the aperture changes nothing; reserved offsets, the aperture at or
beyond SMAX and the reserved bits of STATUS read 0. That writes at 0x1000 and above are ignored in every size, and that byte reads beyond
SMAX are answered, is the model's choice: log 13. -/
def Obligations.OtherWritesIgnored : Prop :=
  (∀ (s : State) (r : Reg) (v : Word) (q : List HostMove), r.isArg = false → r ≠ .cmd → s.NextMove (hostW r v) q →
    step s = .next { s with queue := q }) ∧
  (∀ (s : State) (off : Nat) (v : Word) (q : List HostMove), 0x038 ≤ off → off ≤ 0xFFC → off % 4 = 0 →
    (s.NextMove (.write .word off v) q → step s = .next { s with queue := q }) ∧
    (s.NextMove (.read .word off) q → step s = .next { s with queue := q, readData := 0 })) ∧
  (∀ (s : State) (size : AccessSize) (off : Nat) (v : Word) (q : List HostMove), 0x1000 ≤ off →
    s.NextMove (.write size off v) q → step s = .next { s with queue := q }) ∧
  (∀ (s : State) (i : Nat) (q : List HostMove), config.smax ≤ i →
    (s.NextMove (hostRB i) q → step s = .next { s with queue := q, readData := 0 }) ∧
    (i % 4 = 0 → s.NextMove (.read .word (0x1000 + i)) q → step s = .next { s with queue := q, readData := 0 })) ∧
  ∀ s : State, (s.readReg .status).extractLsb' 4 28 = 0

/-- R242: a read of the word at each offset of R21's table returns the current value of that register's state and changes nothing of the
block; CMD reads 0 (R23), and STATUS reads its fields (R24). No read of any kind, where it answers, changes more than the value the
host obtains and the counter of free values. -/
def Obligations.RegisterReadsReturnValue : Prop :=
  (∀ (s : State) (q : List HostMove) (off : Nat) (v : Word),
    (off, v) ∈
      [(0x000, 0), (0x008, s.argN), (0x00C, s.argRow), (0x010, s.argBytesLo), (0x014, s.argBytesHi), (0x018, s.argPtrtabLo),
        (0x01C, s.argPtrtabHi), (0x020, s.winN), (0x024, s.winS), (0x028, s.winF), (0x02C, s.symRow), (0x030, s.symBytes),
        (0x034, s.symPtr)] →
    s.NextMove (.read .word off) q → step s = .next { s with queue := q, readData := v }) ∧
  (∀ (s : State) (q : List HostMove), s.NextMove (.read .word 0x004) q →
    ∃ v : Word, step s = .next { s with queue := q, readData := v } ∧
      v.toNat =
        (match s.result with
          | .success => 0
          | .invalidInput => 1
          | .outOfMemory => 2) +
        4 * s.bufs.isSome.toNat + 8 * s.symValid.toNat) ∧
  (∀ (s : State) (r : Reg) (q : List HostMove), s.NextMove (hostR r) q →
    step s = .next { s with queue := q, readData := s.readReg r }) ∧
  ∀ (s t : State) (size : AccessSize) (off : Nat) (q : List HostMove), s.NextMove (.read size off) q → step s = .next t →
    ∃ (v : Word) (k : Nat), t = { s with queue := q, readData := v, freeIx := k }

/-- The fields of STATUS (R24), and that a write to it is ignored. -/
def Obligations.StatusFields : Prop :=
  ∀ s : State,
    (s.readReg .status).extractLsb' 0 2 = s.result.code ∧
    (s.readReg .status).getLsbD 2 = s.bufs.isSome ∧
    (s.readReg .status).getLsbD 3 = s.symValid ∧
    (s.readReg .status).toNat < 16 ∧ s.result.code ≠ 3 ∧
    (s.result.code = 0 ↔ s.result = .success) ∧ (s.result.code = 1 ↔ s.result = .invalidInput) ∧
    (s.result.code = 2 ↔ s.result = .outOfMemory) ∧
    ∀ (v : Word) (q : List HostMove), s.NextMove (hostW .status v) q → step s = .next { s with queue := q }

/-- R70: a valid byte of the aperture reads SUM[i], another byte below SMAX reads some byte of which nothing is said; an aligned 32-bit
read is four such bytes, little-endian; no read changes the block, and writes are ignored. A byte at or beyond SMAX reads 0 (R35); that
the bytes at or beyond SMAX of a 32-bit read that straddles SMAX are 0 too is the model's choice: log 22; that byte reads beyond SMAX are
answered and writes of every size ignored is log 13's. On a block of any configuration. -/
def Obligations.ApertureReads : Prop :=
  ∀ (cfg : Config) (s : State), s.Inv cfg →
    (∀ i : Nat,
      (∀ b, s.symValid = true → i < s.symBytes.toNat → s.bufs = some b →
        ∃ v, b.sum[i]? = some v ∧ hostMove cfg (hostRB i) s = .next { s with readData := v.setWidth 32 }) ∧
      (cfg.smax ≤ i → hostMove cfg (hostRB i) s = .next { s with readData := 0 }) ∧
      (s.symValid = false ∨ s.symBytes.toNat ≤ i → i < cfg.smax →
        ∃ (v : Byte) (k : Nat), hostMove cfg (hostRB i) s = .next { s with readData := v.setWidth 32, freeIx := k })) ∧
    (∀ i : Nat, i % 4 = 0 → ∃ (v : Word) (k : Nat),
      hostMove cfg (.read .word (0x1000 + i)) s = .next { s with readData := v, freeIx := k } ∧
      ∀ j : Nat, j < 4 →
        (∀ b, s.symValid = true → i + j < s.symBytes.toNat → s.bufs = some b →
          b.sum[i + j]? = some (v.extractLsb' (8 * j) 8)) ∧
        (cfg.smax ≤ i + j → v.extractLsb' (8 * j) 8 = 0)) ∧
    ∀ (size : AccessSize) (i : Nat) (v : Word), hostMove cfg (.write size (0x1000 + i) v) s = .next s

/-- R36: accesses to the bank of another size or alignment are refused. U12: a read at 0x1000 and above that is neither a byte nor an
aligned word is refused too; that byte and aligned word reads are answered beyond SMAX as well is the model's choice: log 13. -/
def Obligations.UndefinedAccessesRefused : Prop :=
  ∀ (s : State) (size : AccessSize) (off : Nat) (v : Word) (q : List HostMove),
    (off < 0x1000 → size ≠ .word ∨ off % 4 ≠ 0 →
      (s.NextMove (.write size off v) q → step s = .refused (.undefinedAccess size off)) ∧
      (s.NextMove (.read size off) q → step s = .refused (.undefinedAccess size off))) ∧
    (0x1000 ≤ off → s.NextMove (.read size off) q →
      (size = .byte ∨ (size = .word ∧ off % 4 = 0) → ∃ t, step s = .next t) ∧
      (¬ (size = .byte ∨ (size = .word ∧ off % 4 = 0)) → step s = .refused (.undefinedAccess size off)))

/-- R245: the lifecycle over (READY, SYMVALID). -/
def Obligations.LifecycleTransitions : Prop :=
  ∀ s t : State, s.Inv config →
    (exec .init s = .next t → t.symValid = false ∧ (t.ready = true ↔ t.result = .success)) ∧
    (exec .encode s = .next t → s.ready = true → t.ready = true ∧ t.symValid = true ∧ t.result = .success) ∧
    (exec .encode s = .next t → s.ready = false → t.ready = false ∧ t.symValid = false ∧ t.result = .invalidInput) ∧
    (exec .free s = .next t → t.ready = false ∧ t.symValid = false ∧ t.result = .success) ∧
    (∀ w, exec (.illegal w) s = .next t → t.ready = s.ready ∧ t.symValid = s.symValid) ∧
    ¬ (s.ready = false ∧ s.symValid = true)

/-- R62: no command writes host memory; no command writes an ARG register (R22). What is the host's own stays too. -/
def Obligations.CommandsNeverWriteHost : Prop :=
  ∀ (i : Instr) (s t : State), exec i s = .next t →
    (∀ a, t.hmem.read a = s.hmem.read a) ∧ t.hmem = s.hmem ∧ (∀ r : Reg, r.isArg = true → t.readReg r = s.readReg r) ∧
    t.queue = s.queue ∧ t.readData = s.readData

/-- R101: the shorthands run as the register writes they expand to, and then the command on the assembled operands (R94). -/
def Obligations.ShorthandsRun : Prop :=
  (∀ (s : State) (n : Word) (bytes tab : BitVec 64) (q : List HostMove), s.engine.rowop = none →
    s.queue = programInit n bytes tab ++ q →
    ∃ u : State, Host.Core.run core 6 s = exec .init u ∧
      u.operandN = n.toNat ∧ u.operandBytes = bytes.toNat ∧ u.operandPtrtab = tab.toNat ∧
      u = { s with
        argN := u.argN
        argBytesLo := u.argBytesLo
        argBytesHi := u.argBytesHi
        argPtrtabLo := u.argPtrtabLo
        argPtrtabHi := u.argPtrtabHi
        queue := q }) ∧
  (∀ (s : State) (row : Word) (q : List HostMove), s.engine.rowop = none → s.queue = programEncode row ++ q →
    Host.Core.run core 2 s = exec .encode { s with argRow := row, queue := q }) ∧
  (∀ (s : State) (q : List HostMove), s.engine.rowop = none → s.queue = programFree ++ q →
    Host.Core.run core 1 s = exec .free { s with queue := q })

/-- The host changes a byte of its memory between commands (R76): that byte, and nothing else of the machine. -/
def Obligations.HostChangesMemory : Prop :=
  ∀ (s : State) (a : Addr) (v : Byte) (q : List HostMove), s.hmem.wf = true →
    (s.NextMove (.hmemStore a v) q → ∃ m, step s = .next { s with queue := q, hmem := m } ∧ m.wf = true ∧
      m.read a.toNat = some v ∧ ∀ x, x ≠ a.toNat → m.read x = s.hmem.read x) ∧
    (s.NextMove (.hmemUnmap a) q → ∃ m, step s = .next { s with queue := q, hmem := m } ∧ m.wf = true ∧
      m.read a.toNat = none ∧ ∀ x, x ≠ a.toNat → m.read x = s.hmem.read x)
end

