-- ==== Sys2Proof/Laws/Buffers.lean ====
section
/-! SUPPORT. What the buffer primitives do, byte by byte (40_gf256.md R124 to R127). -/

namespace Sys2Proof.Machine

@[simp] theorem gfAdd_eq (a b : Byte) : gfAdd a b = a ^^^ b := rfl

@[simp] theorem bufUpdate_length (f : Byte → Byte → Byte) (dst src : Buf) (n : Nat) :
    (bufUpdate f dst src n).length = dst.length := by
  induction dst generalizing src n with
  | nil => cases src <;> cases n <;> rfl
  | cons d ds ih =>
    cases src with
    | nil => cases n <;> rfl
    | cons x xs =>
      cases n with
      | zero => rfl
      | succ n => simp [bufUpdate, ih]

/-- A byte below n is combined with the source's byte where it has one; every other byte stays. -/
theorem bufUpdate_getElem? (f : Byte → Byte → Byte) (dst src : Buf) (n i : Nat) :
    (bufUpdate f dst src n)[i]? =
      if i < n ∧ i < src.length then dst[i]?.map fun d => f d (src[i]?.getD 0) else dst[i]? := by
  induction dst generalizing src n i with
  | nil => cases src <;> cases n <;> simp [bufUpdate]
  | cons d ds ih =>
    cases src with
    | nil => cases n <;> simp [bufUpdate]
    | cons x xs =>
      cases n with
      | zero => simp [bufUpdate]
      | succ n =>
        cases i with
        | zero => simp [bufUpdate]
        | succ i => simpa [bufUpdate] using ih xs n i

@[simp] theorem bufAdd_length (dst src : Buf) (n : Nat) : (bufAdd dst src n).length = dst.length :=
  bufUpdate_length _ _ _ _

@[simp] theorem bufMuladd_length (dst : Buf) (c : Byte) (src : Buf) (n : Nat) :
    (bufMuladd dst c src n).length = dst.length := bufUpdate_length _ _ _ _

/-- buf_add, byte by byte (R124). -/
theorem bufAdd_getElem? (dst src : Buf) (n i : Nat) :
    (bufAdd dst src n)[i]? =
      if i < n ∧ i < src.length then dst[i]?.map fun d => d ^^^ src[i]?.getD 0 else dst[i]? :=
  bufUpdate_getElem? _ _ _ _ _

/-- buf_muladd, byte by byte (R125). -/
theorem bufMuladd_getElem? (dst : Buf) (c : Byte) (src : Buf) (n i : Nat) :
    (bufMuladd dst c src n)[i]? =
      if i < n ∧ i < src.length then dst[i]?.map fun d => d ^^^ gfMul c (src[i]?.getD 0) else dst[i]? :=
  bufUpdate_getElem? _ _ _ _ _

/-- buf_copy_zt writes S bytes (R126). -/
theorem bufCopyZt_length {src : Buf} {n S : Nat} (hn : n ≤ S) (hs : n ≤ src.length) : (bufCopyZt src n S).length = S := by
  simp [bufCopyZt, hs, hn]

/-- buf_copy_zt, byte by byte (R126). -/
theorem bufCopyZt_getElem? {src : Buf} {n S : Nat} (hs : n ≤ src.length) (i : Nat) :
    (bufCopyZt src n S)[i]? = if i < n then src[i]? else if i < S then some 0 else none := by
  unfold bufCopyZt
  by_cases h : i < n
  · rw [if_pos h, List.getElem?_append_left (by simp; omega), List.getElem?_take, if_pos h]
  · rw [if_neg h, List.getElem?_append_right (by simp; omega)]
    have hl : (src.take n).length = n := by simp [hs]
    rw [hl, List.getElem?_replicate]
    by_cases h2 : i < S
    · rw [if_pos (by omega), if_pos h2]
    · rw [if_neg (by omega), if_neg h2]

@[simp] theorem zeroBuf_length (S : Nat) : (zeroBuf S).length = S := List.length_replicate

end Sys2Proof.Machine
end

