-- ==== Sys2Proof/Laws/State.lean ====
section
/-! SUPPORT. One lemma per field per update of State, and the unfolding of `exec` arm by arm. -/

namespace Sys2Proof.Machine

/-! ### setResult -/

@[simp] theorem State.setResult_result (s : State) (r : Result) : (s.setResult r).result = r := rfl
@[simp] theorem State.setResult_symValid (s : State) (r : Result) : (s.setResult r).symValid = s.symValid := rfl
@[simp] theorem State.setResult_argN (s : State) (r : Result) : (s.setResult r).argN = s.argN := rfl
@[simp] theorem State.setResult_argRow (s : State) (r : Result) : (s.setResult r).argRow = s.argRow := rfl
@[simp] theorem State.setResult_argBytesLo (s : State) (r : Result) : (s.setResult r).argBytesLo = s.argBytesLo := rfl
@[simp] theorem State.setResult_argBytesHi (s : State) (r : Result) : (s.setResult r).argBytesHi = s.argBytesHi := rfl
@[simp] theorem State.setResult_argPtrtabLo (s : State) (r : Result) : (s.setResult r).argPtrtabLo = s.argPtrtabLo := rfl
@[simp] theorem State.setResult_argPtrtabHi (s : State) (r : Result) : (s.setResult r).argPtrtabHi = s.argPtrtabHi := rfl
@[simp] theorem State.setResult_winN (s : State) (r : Result) : (s.setResult r).winN = s.winN := rfl
@[simp] theorem State.setResult_winS (s : State) (r : Result) : (s.setResult r).winS = s.winS := rfl
@[simp] theorem State.setResult_winF (s : State) (r : Result) : (s.setResult r).winF = s.winF := rfl
@[simp] theorem State.setResult_symRow (s : State) (r : Result) : (s.setResult r).symRow = s.symRow := rfl
@[simp] theorem State.setResult_symBytes (s : State) (r : Result) : (s.setResult r).symBytes = s.symBytes := rfl
@[simp] theorem State.setResult_symPtr (s : State) (r : Result) : (s.setResult r).symPtr = s.symPtr := rfl
@[simp] theorem State.setResult_bufs (s : State) (r : Result) : (s.setResult r).bufs = s.bufs := rfl
@[simp] theorem State.setResult_engine (s : State) (r : Result) : (s.setResult r).engine = s.engine := rfl
@[simp] theorem State.setResult_hmem (s : State) (r : Result) : (s.setResult r).hmem = s.hmem := rfl
@[simp] theorem State.setResult_queue (s : State) (r : Result) : (s.setResult r).queue = s.queue := rfl
@[simp] theorem State.setResult_readData (s : State) (r : Result) : (s.setResult r).readData = s.readData := rfl
@[simp] theorem State.setResult_freeIx (s : State) (r : Result) : (s.setResult r).freeIx = s.freeIx := rfl

/-! ### release -/

@[simp] theorem State.release_result (s : State) : (s.release).result = s.result := rfl
@[simp] theorem State.release_symValid (s : State) : (s.release).symValid = false := rfl
@[simp] theorem State.release_argN (s : State) : (s.release).argN = s.argN := rfl
@[simp] theorem State.release_argRow (s : State) : (s.release).argRow = s.argRow := rfl
@[simp] theorem State.release_argBytesLo (s : State) : (s.release).argBytesLo = s.argBytesLo := rfl
@[simp] theorem State.release_argBytesHi (s : State) : (s.release).argBytesHi = s.argBytesHi := rfl
@[simp] theorem State.release_argPtrtabLo (s : State) : (s.release).argPtrtabLo = s.argPtrtabLo := rfl
@[simp] theorem State.release_argPtrtabHi (s : State) : (s.release).argPtrtabHi = s.argPtrtabHi := rfl
@[simp] theorem State.release_winN (s : State) : (s.release).winN = 0 := rfl
@[simp] theorem State.release_winS (s : State) : (s.release).winS = 0 := rfl
@[simp] theorem State.release_winF (s : State) : (s.release).winF = 0 := rfl
@[simp] theorem State.release_symRow (s : State) : (s.release).symRow = 0 := rfl
@[simp] theorem State.release_symBytes (s : State) : (s.release).symBytes = 0 := rfl
@[simp] theorem State.release_symPtr (s : State) : (s.release).symPtr = 0 := rfl
@[simp] theorem State.release_bufs (s : State) : (s.release).bufs = none := rfl
@[simp] theorem State.release_engine (s : State) : (s.release).engine = s.engine := rfl
@[simp] theorem State.release_hmem (s : State) : (s.release).hmem = s.hmem := rfl
@[simp] theorem State.release_queue (s : State) : (s.release).queue = s.queue := rfl
@[simp] theorem State.release_readData (s : State) : (s.release).readData = s.readData := rfl
@[simp] theorem State.release_freeIx (s : State) : (s.release).freeIx = s.freeIx := rfl

/-! ### commit -/

@[simp] theorem State.commit_result (s : State) (w : Window) (t : LaneTable) : (s.commit w t).result = .success := rfl
@[simp] theorem State.commit_symValid (s : State) (w : Window) (t : LaneTable) : (s.commit w t).symValid = false := rfl
@[simp] theorem State.commit_argN (s : State) (w : Window) (t : LaneTable) : (s.commit w t).argN = s.argN := rfl
@[simp] theorem State.commit_argRow (s : State) (w : Window) (t : LaneTable) : (s.commit w t).argRow = s.argRow := rfl
@[simp] theorem State.commit_argBytesLo (s : State) (w : Window) (t : LaneTable) : (s.commit w t).argBytesLo = s.argBytesLo := rfl
@[simp] theorem State.commit_argBytesHi (s : State) (w : Window) (t : LaneTable) : (s.commit w t).argBytesHi = s.argBytesHi := rfl
@[simp] theorem State.commit_argPtrtabLo (s : State) (w : Window) (t : LaneTable) : (s.commit w t).argPtrtabLo = s.argPtrtabLo := rfl
@[simp] theorem State.commit_argPtrtabHi (s : State) (w : Window) (t : LaneTable) : (s.commit w t).argPtrtabHi = s.argPtrtabHi := rfl
@[simp] theorem State.commit_winN (s : State) (w : Window) (t : LaneTable) : (s.commit w t).winN = BitVec.ofNat 32 w.n := rfl
@[simp] theorem State.commit_winS (s : State) (w : Window) (t : LaneTable) : (s.commit w t).winS = BitVec.ofNat 32 w.s := rfl
@[simp] theorem State.commit_winF (s : State) (w : Window) (t : LaneTable) : (s.commit w t).winF = BitVec.ofNat 32 w.f := rfl
@[simp] theorem State.commit_symRow (s : State) (w : Window) (t : LaneTable) : (s.commit w t).symRow = s.symRow := rfl
@[simp] theorem State.commit_symBytes (s : State) (w : Window) (t : LaneTable) : (s.commit w t).symBytes = s.symBytes := rfl
@[simp] theorem State.commit_symPtr (s : State) (w : Window) (t : LaneTable) : (s.commit w t).symPtr = s.symPtr := rfl
@[simp] theorem State.commit_bufs (s : State) (w : Window) (t : LaneTable) : (s.commit w t).bufs = some { ptr := w.ptr, lane := t, sum := freeBytes s.freeIx w.s, prod := freeBytes (s.freeIx + w.s) w.s } := rfl
@[simp] theorem State.commit_engine (s : State) (w : Window) (t : LaneTable) : (s.commit w t).engine = s.engine := rfl
@[simp] theorem State.commit_hmem (s : State) (w : Window) (t : LaneTable) : (s.commit w t).hmem = s.hmem := rfl
@[simp] theorem State.commit_queue (s : State) (w : Window) (t : LaneTable) : (s.commit w t).queue = s.queue := rfl
@[simp] theorem State.commit_readData (s : State) (w : Window) (t : LaneTable) : (s.commit w t).readData = s.readData := rfl
@[simp] theorem State.commit_freeIx (s : State) (w : Window) (t : LaneTable) : (s.commit w t).freeIx = s.freeIx + 2 * w.s := rfl

/-! ### publish -/

@[simp] theorem State.publish_result (s : State) (b : Buffers) (r : Word) : (s.publish b r).result = .success := rfl
@[simp] theorem State.publish_symValid (s : State) (b : Buffers) (r : Word) : (s.publish b r).symValid = true := rfl
@[simp] theorem State.publish_argN (s : State) (b : Buffers) (r : Word) : (s.publish b r).argN = s.argN := rfl
@[simp] theorem State.publish_argRow (s : State) (b : Buffers) (r : Word) : (s.publish b r).argRow = s.argRow := rfl
@[simp] theorem State.publish_argBytesLo (s : State) (b : Buffers) (r : Word) : (s.publish b r).argBytesLo = s.argBytesLo := rfl
@[simp] theorem State.publish_argBytesHi (s : State) (b : Buffers) (r : Word) : (s.publish b r).argBytesHi = s.argBytesHi := rfl
@[simp] theorem State.publish_argPtrtabLo (s : State) (b : Buffers) (r : Word) : (s.publish b r).argPtrtabLo = s.argPtrtabLo := rfl
@[simp] theorem State.publish_argPtrtabHi (s : State) (b : Buffers) (r : Word) : (s.publish b r).argPtrtabHi = s.argPtrtabHi := rfl
@[simp] theorem State.publish_winN (s : State) (b : Buffers) (r : Word) : (s.publish b r).winN = s.winN := rfl
@[simp] theorem State.publish_winS (s : State) (b : Buffers) (r : Word) : (s.publish b r).winS = s.winS := rfl
@[simp] theorem State.publish_winF (s : State) (b : Buffers) (r : Word) : (s.publish b r).winF = s.winF := rfl
@[simp] theorem State.publish_symRow (s : State) (b : Buffers) (r : Word) : (s.publish b r).symRow = r := rfl
@[simp] theorem State.publish_symBytes (s : State) (b : Buffers) (r : Word) : (s.publish b r).symBytes = s.winS := rfl
@[simp] theorem State.publish_symPtr (s : State) (b : Buffers) (r : Word) : (s.publish b r).symPtr = BitVec.ofNat 32 apertureBase := rfl
@[simp] theorem State.publish_bufs (s : State) (b : Buffers) (r : Word) : (s.publish b r).bufs = some b := rfl
@[simp] theorem State.publish_engine (s : State) (b : Buffers) (r : Word) : (s.publish b r).engine = { s.engine with prng := none, lane := 0 } := rfl
@[simp] theorem State.publish_hmem (s : State) (b : Buffers) (r : Word) : (s.publish b r).hmem = s.hmem := rfl
@[simp] theorem State.publish_queue (s : State) (b : Buffers) (r : Word) : (s.publish b r).queue = s.queue := rfl
@[simp] theorem State.publish_readData (s : State) (b : Buffers) (r : Word) : (s.publish b r).readData = s.readData := rfl
@[simp] theorem State.publish_freeIx (s : State) (b : Buffers) (r : Word) : (s.publish b r).freeIx = s.freeIx := rfl

/-! ### obtain -/

@[simp] theorem State.obtain_result (s : State) (v : Word) : (s.obtain v).result = s.result := rfl
@[simp] theorem State.obtain_symValid (s : State) (v : Word) : (s.obtain v).symValid = s.symValid := rfl
@[simp] theorem State.obtain_argN (s : State) (v : Word) : (s.obtain v).argN = s.argN := rfl
@[simp] theorem State.obtain_argRow (s : State) (v : Word) : (s.obtain v).argRow = s.argRow := rfl
@[simp] theorem State.obtain_argBytesLo (s : State) (v : Word) : (s.obtain v).argBytesLo = s.argBytesLo := rfl
@[simp] theorem State.obtain_argBytesHi (s : State) (v : Word) : (s.obtain v).argBytesHi = s.argBytesHi := rfl
@[simp] theorem State.obtain_argPtrtabLo (s : State) (v : Word) : (s.obtain v).argPtrtabLo = s.argPtrtabLo := rfl
@[simp] theorem State.obtain_argPtrtabHi (s : State) (v : Word) : (s.obtain v).argPtrtabHi = s.argPtrtabHi := rfl
@[simp] theorem State.obtain_winN (s : State) (v : Word) : (s.obtain v).winN = s.winN := rfl
@[simp] theorem State.obtain_winS (s : State) (v : Word) : (s.obtain v).winS = s.winS := rfl
@[simp] theorem State.obtain_winF (s : State) (v : Word) : (s.obtain v).winF = s.winF := rfl
@[simp] theorem State.obtain_symRow (s : State) (v : Word) : (s.obtain v).symRow = s.symRow := rfl
@[simp] theorem State.obtain_symBytes (s : State) (v : Word) : (s.obtain v).symBytes = s.symBytes := rfl
@[simp] theorem State.obtain_symPtr (s : State) (v : Word) : (s.obtain v).symPtr = s.symPtr := rfl
@[simp] theorem State.obtain_bufs (s : State) (v : Word) : (s.obtain v).bufs = s.bufs := rfl
@[simp] theorem State.obtain_engine (s : State) (v : Word) : (s.obtain v).engine = s.engine := rfl
@[simp] theorem State.obtain_hmem (s : State) (v : Word) : (s.obtain v).hmem = s.hmem := rfl
@[simp] theorem State.obtain_queue (s : State) (v : Word) : (s.obtain v).queue = s.queue := rfl
@[simp] theorem State.obtain_readData (s : State) (v : Word) : (s.obtain v).readData = v := rfl
@[simp] theorem State.obtain_freeIx (s : State) (v : Word) : (s.obtain v).freeIx = s.freeIx := rfl

/-! ### failed -/

@[simp] theorem State.failed_result (s : State) (r : Result) : (s.failed r).result = r := rfl
@[simp] theorem State.failed_symValid (s : State) (r : Result) : (s.failed r).symValid = false := rfl
@[simp] theorem State.failed_argN (s : State) (r : Result) : (s.failed r).argN = s.argN := rfl
@[simp] theorem State.failed_argRow (s : State) (r : Result) : (s.failed r).argRow = s.argRow := rfl
@[simp] theorem State.failed_argBytesLo (s : State) (r : Result) : (s.failed r).argBytesLo = s.argBytesLo := rfl
@[simp] theorem State.failed_argBytesHi (s : State) (r : Result) : (s.failed r).argBytesHi = s.argBytesHi := rfl
@[simp] theorem State.failed_argPtrtabLo (s : State) (r : Result) : (s.failed r).argPtrtabLo = s.argPtrtabLo := rfl
@[simp] theorem State.failed_argPtrtabHi (s : State) (r : Result) : (s.failed r).argPtrtabHi = s.argPtrtabHi := rfl
@[simp] theorem State.failed_winN (s : State) (r : Result) : (s.failed r).winN = 0 := rfl
@[simp] theorem State.failed_winS (s : State) (r : Result) : (s.failed r).winS = 0 := rfl
@[simp] theorem State.failed_winF (s : State) (r : Result) : (s.failed r).winF = 0 := rfl
@[simp] theorem State.failed_symRow (s : State) (r : Result) : (s.failed r).symRow = 0 := rfl
@[simp] theorem State.failed_symBytes (s : State) (r : Result) : (s.failed r).symBytes = 0 := rfl
@[simp] theorem State.failed_symPtr (s : State) (r : Result) : (s.failed r).symPtr = 0 := rfl
@[simp] theorem State.failed_bufs (s : State) (r : Result) : (s.failed r).bufs = none := rfl
@[simp] theorem State.failed_engine (s : State) (r : Result) : (s.failed r).engine = s.engine := rfl
@[simp] theorem State.failed_hmem (s : State) (r : Result) : (s.failed r).hmem = s.hmem := rfl
@[simp] theorem State.failed_queue (s : State) (r : Result) : (s.failed r).queue = s.queue := rfl
@[simp] theorem State.failed_readData (s : State) (r : Result) : (s.failed r).readData = s.readData := rfl
@[simp] theorem State.failed_freeIx (s : State) (r : Result) : (s.failed r).freeIx = s.freeIx := rfl

/-- A failing INIT releases and records its result (R265). -/
theorem State.release_setResult (s : State) (r : Result) : s.release.setResult r = s.failed r := rfl

@[simp] theorem State.release_ready (s : State) : s.release.ready = false := rfl
@[simp] theorem State.publish_ready (s : State) (b : Buffers) (r : Word) : (s.publish b r).ready = true := rfl
@[simp] theorem State.commit_ready (s : State) (w : Window) (t : LaneTable) : (s.commit w t).ready = true := rfl
@[simp] theorem State.setResult_ready (s : State) (r : Result) : (s.setResult r).ready = s.ready := rfl
theorem State.release_release (s : State) : s.release.release = s.release := rfl

/-- The STATUS word as a number: RESULT, 4 for READY, 8 for SYMVALID (R24). -/
theorem State.status_toNat (s : State) :
    s.status.toNat = s.result.code.toNat + 4 * s.ready.toNat + 8 * s.symValid.toNat := by
  have h : ∀ (v r : Bool) (c : BitVec 2),
      ((0 : BitVec 28) ++ BitVec.ofBool v ++ BitVec.ofBool r ++ c).toNat = c.toNat + 4 * r.toNat + 8 * v.toNat := by decide
  exact h s.symValid s.ready s.result.code

/-! ### exec, arm by arm -/

@[simp] theorem exec_init (s : State) : exec .init s = initWith config s := rfl
@[simp] theorem exec_encode (s : State) : exec .encode s = encodeWith config s := rfl
@[simp] theorem exec_free (s : State) : exec .free s = .next (s.failed .success) := rfl
@[simp] theorem exec_illegal (w : Word) (s : State) : exec (.illegal w) s = .next (s.setResult .invalidInput) := rfl
@[simp] theorem exec_rowop (op : BitVec 6) (s : State) : exec (.rowop op) s = execRowop op s := rfl

end Sys2Proof.Machine
end

