-- ==== Sys2Proof/Laws/Bus.lean ====
section
/-! SUPPORT. What an aperture read and a register access can do, said once (20_memory.md R70, 10_state.md R35, R36). -/

namespace Sys2Proof.Machine

/-- An aperture read changes nothing but the counter of free values. -/
theorem readAperture_frame (cfg : Config) (s : State) (i : Nat) : ∃ k, (readAperture cfg s i).2 = { s with freeIx := k } := by
  unfold readAperture
  split
  · exact ⟨s.freeIx, rfl⟩
  · exact ⟨s.freeIx + 1, rfl⟩

/-- A byte of specified value is read as that value, and nothing changes. -/
theorem readAperture_of_some {cfg : Config} {s : State} {i : Nat} {b : Byte} (h : apertureByte cfg s i = some b) :
    readAperture cfg s i = (b, s) := by
  unfold readAperture; rw [h]

/-- A byte of no specified value is read as the next free value. -/
theorem readAperture_of_none {cfg : Config} {s : State} {i : Nat} (h : apertureByte cfg s i = none) :
    readAperture cfg s i = (Config.freeByte s.freeIx, { s with freeIx := s.freeIx + 1 }) := by
  unfold readAperture; rw [h]

/-- The specified value of a byte does not depend on the counter of free values. -/
@[simp] theorem apertureByte_freeIx (cfg : Config) (s : State) (i k : Nat) :
    apertureByte cfg { s with freeIx := k } i = apertureByte cfg s i := rfl

/-- A 32-bit read is four byte reads, the lowest byte from the lowest offset, and changes nothing but the counter of free values. -/
theorem readAperture32_eq (cfg : Config) (s : State) (i : Nat) :
    ∃ (k : Nat) (b0 b1 b2 b3 : Byte),
      readAperture32 cfg s i = (b3 ++ b2 ++ b1 ++ b0, { s with freeIx := k }) ∧
      (∀ v, apertureByte cfg s i = some v → b0 = v) ∧ (∀ v, apertureByte cfg s (i + 1) = some v → b1 = v) ∧
      (∀ v, apertureByte cfg s (i + 2) = some v → b2 = v) ∧ ∀ v, apertureByte cfg s (i + 3) = some v → b3 = v := by
  have hv : ∀ (j k : Nat) (v : Byte), apertureByte cfg s j = some v → (readAperture cfg { s with freeIx := k } j).1 = v :=
    fun j k v h => congrArg Prod.fst (readAperture_of_some (s := { s with freeIx := k }) h)
  obtain ⟨k0, h0⟩ := readAperture_frame cfg s i
  obtain ⟨k1, h1⟩ := readAperture_frame cfg { s with freeIx := k0 } (i + 1)
  obtain ⟨k2, h2⟩ := readAperture_frame cfg { s with freeIx := k1 } (i + 2)
  obtain ⟨k3, h3⟩ := readAperture_frame cfg { s with freeIx := k2 } (i + 3)
  refine ⟨k3, _, _, _, _, ?_, hv i s.freeIx, hv (i + 1) k0, hv (i + 2) k1, hv (i + 3) k2⟩
  unfold readAperture32
  simp only [h0, h1, h2, h3]

/-- The bank holds no register at an offset of 0x038 or more (R21). -/
theorem regAt_of_reserved {off : Nat} (h : 0x038 ≤ off) : regAt off = none := by
  rw [regAt, List.find?_eq_none]
  intro r _ he
  have he : r.offset = off := by simpa using he
  subst he
  cases r <;> exact absurd h (by decide)

/-- A register's offset finds it (R21). -/
theorem regAt_offset (r : Reg) : regAt r.offset = some r := by cases r <;> rfl

/-- Every register lies in the bank, at a multiple of 4 (R21, R36). -/
theorem Reg.offset_aligned (r : Reg) : r.offset % 4 = 0 ∧ r.offset < apertureBase := by cases r <;> exact ⟨rfl, by decide⟩

end Sys2Proof.Machine
end

