-- ==== Sys2Proof/Laws/Config.lean ====
section
/-! SUPPORT. The configuration of the block is any record R6 allows, and no other. -/

namespace Sys2Proof

namespace Config

theorem clampCapacity_pos (n : Nat) : 1 ≤ clampCapacity n := by unfold clampCapacity; omega

theorem clampCapacity_le (n : Nat) : clampCapacity n ≤ 2 ^ 32 - 1 := by unfold clampCapacity; omega

theorem clampCapacity_of_legal {n : Nat} (h1 : 1 ≤ n) (h2 : n ≤ 2 ^ 32 - 1) : clampCapacity n = n := by
  unfold clampCapacity; omega

/-- Every clamped record meets R6's constraints. -/
theorem clamp_legal (cfg : Config) : cfg.clamp.Legal where
  cx_ne_zero c hc := by
    have hc' : c < clampCapacity cfg.nmax := hc
    show (if c < clampCapacity cfg.nmax ∧ cfg.cx c = 0 then (1 : Byte) else cfg.cx c) ≠ 0
    split
    · decide
    · next h => exact fun h0 => h ⟨hc', h0⟩
  nmax_pos := clampCapacity_pos _
  nmax_le := clampCapacity_le _
  smax_pos := clampCapacity_pos _
  smax_le := clampCapacity_le _
  xaccB_pos := le_max_left _ _

/-- A record that meets R6's constraints is left as it is. -/
theorem clamp_of_legal {cfg : Config} (h : cfg.Legal) : cfg.clamp = cfg := by
  have hn := clampCapacity_of_legal h.nmax_pos h.nmax_le
  have hs := clampCapacity_of_legal h.smax_pos h.smax_le
  have hb : max 1 cfg.xaccB = cfg.xaccB := max_eq_right h.xaccB_pos
  have hcx : ∀ c, (if c < cfg.nmax ∧ cfg.cx c = 0 then (1 : Byte) else cfg.cx c) = cfg.cx c := by
    intro c
    split
    · next h' => exact absurd h'.2 (h.cx_ne_zero c h'.1)
    · rfl
  obtain ⟨cx, rx, rowOp, prng, nmax, smax, xaccB⟩ := cfg
  simp only [clamp] at *
  simp only [hn, hs, hb, Config.mk.injEq, and_true]
  exact funext hcx

end Config

/-- The machine's own configuration meets R6's constraints. -/
theorem config_legal : config.Legal := Config.clamp_legal _

end Sys2Proof
end

