-- ==== Sys2Proof/Laws/Memory.lean ====
section
/-! SUPPORT. Host memory: every operation keeps the canonical form; reading after a store or an unmapping (20_memory.md R61, R76);
what MemRead answers. -/

namespace Sys2Proof.Machine

/-- The canonical form, entry by entry. -/
theorem Memory.wf_iff (m : Memory) :
    m.wf = true ↔ (∀ c ∈ m, c.1 < addressTop) ∧ m.Pairwise (fun c d => c.1 < d.1) := by
  simp [Memory.wf]

theorem Memory.wf_nil : Memory.wf [] = true := by decide

theorem Memory.mem_store {m : Memory} {a : Nat} {b : Byte} {c : Host.Cell} (h : c ∈ m.store a b) : c = (a, b) ∨ c ∈ m := by
  induction m with
  | nil => simpa [Memory.store] using h
  | cons d m ih =>
    obtain ⟨k, v⟩ := d
    unfold Memory.store at h
    split at h
    · rcases List.mem_cons.mp h with h | h
      · exact .inl h
      · exact .inr (List.mem_cons_of_mem _ h)
    · split at h
      · rcases List.mem_cons.mp h with h | h
        · exact .inl h
        · exact .inr h
      · rcases List.mem_cons.mp h with h | h
        · exact .inr (h ▸ List.mem_cons_self)
        · exact (ih h).imp_right (List.mem_cons_of_mem _)

theorem Memory.mem_unmap {m : Memory} {a : Nat} {c : Host.Cell} (h : c ∈ m.unmap a) : c ∈ m := by
  induction m with
  | nil => simp [Memory.unmap] at h
  | cons d m ih =>
    obtain ⟨k, v⟩ := d
    unfold Memory.unmap at h
    split at h
    · exact List.mem_cons_of_mem _ h
    · split at h
      · exact h
      · rcases List.mem_cons.mp h with h | h
        · exact h ▸ List.mem_cons_self
        · exact List.mem_cons_of_mem _ (ih h)

/-- A store inside the address space keeps the canonical form. -/
theorem Memory.wf_store {m : Memory} {a : Nat} (b : Byte) (ha : a < addressTop) (h : m.wf = true) :
    (m.store a b).wf = true := by
  rw [Memory.wf_iff] at h ⊢
  refine ⟨fun c hc => (Memory.mem_store hc).elim (fun e => e ▸ ha) (h.1 c), ?_⟩
  have hp := h.2
  clear h
  induction m with
  | nil => simp [Memory.store]
  | cons d m ih =>
    obtain ⟨k, v⟩ := d
    rw [List.pairwise_cons] at hp
    unfold Memory.store
    split
    · next e => exact List.pairwise_cons.mpr ⟨fun c hc => e ▸ hp.1 c hc, hp.2⟩
    · split
      · next hlt =>
        refine List.pairwise_cons.mpr ⟨fun c hc => ?_, List.pairwise_cons.mpr hp⟩
        rcases List.mem_cons.mp hc with rfl | hc
        · exact hlt
        · exact hlt.trans (hp.1 c hc)
      · refine List.pairwise_cons.mpr ⟨fun c hc => ?_, ih hp.2⟩
        rcases Memory.mem_store hc with rfl | hc
        · simp only; omega
        · exact hp.1 c hc

/-- Taking a byte away keeps the canonical form. -/
theorem Memory.wf_unmap {m : Memory} (a : Nat) (h : m.wf = true) : (m.unmap a).wf = true := by
  rw [Memory.wf_iff] at h ⊢
  refine ⟨fun c hc => h.1 c (Memory.mem_unmap hc), ?_⟩
  have hp := h.2
  clear h
  induction m with
  | nil => simp [Memory.unmap]
  | cons d m ih =>
    obtain ⟨k, v⟩ := d
    have hp' := List.pairwise_cons.mp hp
    unfold Memory.unmap
    split
    · exact hp'.2
    · split
      · exact hp
      · exact List.pairwise_cons.mpr ⟨fun c hc => hp'.1 c (Memory.mem_unmap hc), ih hp'.2⟩

/-- Below every listed address nothing can be read. -/
theorem Memory.read_eq_none {m : Memory} {a : Nat} (h : ∀ c ∈ m, a < c.1) : m.read a = none := by
  cases m with
  | nil => rfl
  | cons d m =>
    obtain ⟨k, v⟩ := d
    have hk : a < k := h (k, v) List.mem_cons_self
    unfold Memory.read
    rw [if_neg (by omega), if_pos hk]

/-- A store is read back, and leaves every other address alone. -/
theorem Memory.read_store (m : Memory) (a : Nat) (b : Byte) (x : Nat) :
    (m.store a b).read x = if x = a then some b else m.read x := by
  induction m with
  | nil => by_cases h : x = a <;> simp [Memory.store, Memory.read, h]
  | cons d m ih =>
    obtain ⟨k, v⟩ := d
    unfold Memory.store
    split
    · next e => subst e; by_cases h : x = a <;> simp [Memory.read, h]
    · split
      · next h1 h2 =>
        by_cases h : x = a
        · simp [Memory.read, h]
        · by_cases hx : x < a
          · have : x < k := by omega
            have h3 : x ≠ k := by omega
            simp [Memory.read, h, hx, this, h3]
          · simp [Memory.read, h, hx]
      · next h1 h2 =>
        rw [Memory.read, ih, Memory.read]
        by_cases h : x = a
        · subst h; simp [h1, h2]
        · simp [h]

/-- An unmapped byte cannot be read, and every other address is left alone (in a canonical memory). -/
theorem Memory.read_unmap {m : Memory} (h : m.wf = true) (a x : Nat) :
    (m.unmap a).read x = if x = a then none else m.read x := by
  have hp := ((Memory.wf_iff m).mp h).2
  clear h
  induction m with
  | nil => simp [Memory.unmap, Memory.read]
  | cons d m ih =>
    obtain ⟨k, v⟩ := d
    have hp' := List.pairwise_cons.mp hp
    unfold Memory.unmap
    split
    · next e =>
      subst e
      by_cases h : x = a
      · rw [if_pos h, Memory.read_eq_none fun c hc => h ▸ hp'.1 c hc]
      · by_cases hx : x < a
        · rw [if_neg h, Memory.read, if_neg h, if_pos hx, Memory.read_eq_none fun c hc => hx.trans (hp'.1 c hc)]
        · simp [Memory.read, h, hx]
    · split
      · next h1 h2 =>
        by_cases h : x = a
        · subst h; simp [Memory.read, h1, h2]
        · simp [h]
      · next h1 h2 =>
        rw [Memory.read, ih hp'.2, Memory.read]
        by_cases h : x = a
        · subst h; simp [h1, h2]
        · simp [h]

/-- MemRead answers exactly where every byte can be read, with those bytes in address order (R61). -/
theorem memRead_ok_iff (m : Memory) (a n : Nat) (bs : List Byte) :
    memRead m a n = .ok bs ↔ bs.length = n ∧ ∀ i (h : i < bs.length), m.read (a + i) = some bs[i] := by
  induction n generalizing a bs with
  | zero =>
    simp only [memRead, Except.ok.injEq]
    constructor
    · rintro rfl; simp
    · rintro ⟨h, -⟩; exact (List.length_eq_zero_iff.mp h).symm
  | succ n ih =>
    rw [memRead]
    split
    · next hr =>
      constructor
      · intro h; cases h
      · rintro ⟨hl, h⟩
        have := h 0 (by omega)
        rw [Nat.add_zero, hr] at this
        cases this
    · next b hr =>
      constructor
      · intro h
        cases hm : memRead m (a + 1) n with
        | error e => rw [hm] at h; cases h
        | ok cs =>
          rw [hm] at h
          obtain rfl : b :: cs = bs := by simpa [Except.map] using h
          obtain ⟨hl, hc⟩ := (ih (a + 1) cs).mp hm
          refine ⟨by simp [hl], fun i hi => ?_⟩
          cases i with
          | zero => simpa using hr
          | succ i =>
            have := hc i (by simpa using hi)
            simpa [Nat.add_comm, Nat.add_left_comm] using this
      · rintro ⟨hl, h⟩
        cases bs with
        | nil => simp at hl
        | cons c cs =>
          have h0 := h 0 (by simp)
          rw [Nat.add_zero, hr] at h0
          obtain rfl : b = c := by simpa using h0
          have : memRead m (a + 1) n = .ok cs := by
            refine (ih (a + 1) cs).mpr ⟨by simpa using hl, fun i hi => ?_⟩
            have := h (i + 1) (by simpa using hi)
            simpa [Nat.add_comm, Nat.add_left_comm] using this
          rw [this]; rfl

/-- MemRead stops only at a byte that cannot be read, with a fault that names it (R73). -/
theorem memRead_error {m : Memory} {a n : Nat} {e : Stop} (h : memRead m a n = .error e) :
    ∃ x, a ≤ x ∧ x < a + n ∧ m.read x = none ∧ e = .fault (.unreadable x) := by
  induction n generalizing a with
  | zero => cases h
  | succ n ih =>
    rw [memRead] at h
    split at h
    · next hr =>
      cases h
      exact ⟨a, le_refl _, by omega, hr, rfl⟩
    · cases hm : memRead m (a + 1) n with
      | ok cs => rw [hm] at h; cases h
      | error e' =>
        rw [hm] at h
        obtain rfl : e' = e := by simpa [Except.map] using h
        obtain ⟨x, h1, h2, h3, h4⟩ := ih hm
        exact ⟨x, by omega, by omega, h3, h4⟩

end Sys2Proof.Machine
end

