-- ==== Sys2Proof/Laws/Ops.lean ====
section
/-! SUPPORT. What each shared operation can answer, said once: pointer entries, originals, the phases of INIT, the steps of ENCODE. -/

namespace Sys2Proof.Machine

/-! ### Stopping and going on -/

/-- A computation followed by a continuation ends in a next state only through both. -/
theorem continueWith_next {α : Type} {x : Except Stop α} {k : α → Host.Outcome State Fault Refusal} {t : State}
    (h : continueWith x k = .next t) : ∃ v, x = .ok v ∧ k v = .next t := by
  cases x with
  | ok v => exact ⟨v, rfl, h⟩
  | error e => cases e <;> cases h

@[simp] theorem continueWith_ok {α : Type} (v : α) (k : α → Host.Outcome State Fault Refusal) :
    continueWith (.ok v) k = k v := rfl

@[simp] theorem continueWith_fault {α : Type} (f : Fault) (k : α → Host.Outcome State Fault Refusal) :
    continueWith (.error (.fault f)) k = .fault f := rfl

@[simp] theorem continueWith_refuse {α : Type} (r : Refusal) (k : α → Host.Outcome State Fault Refusal) :
    continueWith (.error (.refuse r)) k = .refused r := rfl

/-! ### Pointer entries -/

/-- The little-endian number of a byte sequence as the sum R63 writes. -/
theorem littleEndian_map_range (f : Nat → Byte) (n : Nat) :
    littleEndian ((List.range n).map f) = ((List.range n).map fun j => (f j).toNat * 256 ^ j).sum := by
  induction n generalizing f with
  | zero => rfl
  | succ n ih =>
    have hs : ((List.range n).map fun j => (f (j + 1)).toNat * 256 ^ (j + 1)).sum =
        256 * ((List.range n).map fun j => (f (j + 1)).toNat * 256 ^ j).sum := by
      rw [← List.sum_map_mul_left]
      congr 1
      exact List.map_congr_left fun j _ => by rw [Nat.pow_succ]; ac_rfl
    rw [List.range_succ_eq_map, List.map_cons, List.map_map, List.map_cons, List.map_map, littleEndian,
      List.sum_cons]
    have := ih fun j => f (j + 1)
    simp only [Function.comp_def, Nat.succ_eq_add_one]
    rw [this, hs, Nat.pow_zero, Nat.mul_one]

/-- A byte sequence of n bytes is a number below 256^n. -/
theorem littleEndian_lt (bs : List Byte) : littleEndian bs < 256 ^ bs.length := by
  induction bs with
  | nil => exact Nat.one_pos
  | cons b bs ih =>
    have hb : b.toNat < 256 := b.isLt
    rw [littleEndian, List.length_cons, Nat.pow_succ]
    omega

/-- An entry's value is the little-endian number of its bytes. -/
theorem entryValue_eq (m : Memory) (tab c : Nat) :
    entryValue m tab c = littleEndian ((List.range 8).map fun j => (m.read (tab + 8 * c + j)).getD 0) :=
  (littleEndian_map_range (fun j => (m.read (tab + 8 * c + j)).getD 0) 8).symm

/-- A readable entry is read as the little-endian number of R63. -/
theorem memRead64_of_readable {m : Memory} {tab c : Nat} (h : entryReadable m tab c = true) :
    memRead64 m (tab + 8 * c) = .ok (BitVec.ofNat 64 (entryValue m tab c)) := by
  have hm : memRead m (tab + 8 * c) 8 = .ok ((List.range 8).map fun j => (m.read (tab + 8 * c + j)).getD 0) := by
    refine (memRead_ok_iff _ _ _ _).mpr ⟨by rw [List.length_map, List.length_range], fun i hi => ?_⟩
    rw [List.length_map, List.length_range] at hi
    obtain ⟨b, hb⟩ := Option.isSome_iff_exists.mp (List.all_eq_true.mp h i (List.mem_range.mpr hi))
    rw [List.getElem_map, List.getElem_range, hb, Option.getD_some]
  rw [memRead64, hm, entryValue_eq]
  rfl

/-- An entry is a 64-bit number. -/
theorem entryValue_lt (m : Memory) (tab c : Nat) : entryValue m tab c < 2 ^ 64 := by
  rw [entryValue_eq]
  refine lt_of_lt_of_eq (littleEndian_lt _) ?_
  rw [List.length_map, List.length_range]
  norm_num

/-! ### Originals -/

/-- An original that is answered has `len(c)` bytes, and they are the bytes of its zero-extended view (R64, R65). -/
theorem readOriginal_ok {m : Memory} {w : Window} {c : Nat} {bs : List Byte} (h : readOriginal m w c = .ok bs) :
    bs.length = w.len c ∧ ∀ i, i < w.len c → bs[i]? = origByte m w c i := by
  unfold readOriginal at h
  split at h
  · cases h
  · next p hp =>
    obtain ⟨hl, hb⟩ := (memRead_ok_iff _ _ _ _).mp h
    refine ⟨hl, fun i hi => ?_⟩
    have hi' : i < bs.length := by omega
    rw [origByte, if_pos hi, hp, Option.bind_some, hb i hi', List.getElem?_eq_getElem hi']

/-- A readable original is answered. -/
theorem readOriginal_of_readable {m : Memory} {w : Window} {c : Nat} (hc : c < w.ptr.length) (h : w.readable m c = true) :
    ∃ bs, readOriginal m w c = .ok bs := by
  unfold readOriginal
  rw [List.getElem?_eq_getElem hc]
  cases hm : memRead m (w.ptr[c]).toNat (w.len c) with
  | ok bs => exact ⟨bs, hm⟩
  | error e =>
    obtain ⟨x, h1, h2, h3, -⟩ := memRead_error hm
    have hi : x - (w.ptr[c]).toNat < w.len c := by omega
    have := List.all_eq_true.mp h _ (List.mem_range.mpr hi)
    rw [origByte, if_pos hi, List.getElem?_eq_getElem hc, Option.bind_some, Nat.add_sub_cancel' h1, h3] at this
    cases this

/-- An original stops the command only at a byte that cannot be read, or where it has no pointer (R73, log 21). -/
theorem readOriginal_error {m : Memory} {w : Window} {c : Nat} {e : Stop} (h : readOriginal m w c = .error e) :
    (w.ptr.length ≤ c ∧ e = .fault (.noPointer c)) ∨ ∃ x, m.read x = none ∧ e = .fault (.unreadable x) := by
  unfold readOriginal at h
  split at h
  · next hp =>
    cases h
    exact .inl ⟨List.getElem?_eq_none_iff.mp hp, rfl⟩
  · obtain ⟨x, -, -, h3, h4⟩ := memRead_error h
    exact .inr ⟨x, h3, h4⟩

/-! ### INIT -/

/-- Phase 1 answers exactly where its checks pass, with the S and F of R182. -/
theorem setParameters_eq_some_iff (N T S F : Nat) :
    setParameters N T = some (S, F) ↔
      1 ≤ N ∧ N ≤ T ∧ S = (T + N - 1) / N ∧ (N - 1) * S < T ∧ F = T - (N - 1) * S := by
  unfold setParameters
  by_cases h0 : N = 0
  · simp [h0]
  by_cases h1 : T < N
  · simp only [h0, h1, if_false, if_true]; constructor
    · intro h; cases h
    · rintro ⟨-, h, -⟩; omega
  simp only [h0, h1, if_false]
  by_cases h2 : (N - 1) * ((T + N - 1) / N) ≥ T
  · rw [if_pos h2]; constructor
    · intro h; cases h
    · rintro ⟨-, -, rfl, h, -⟩; omega
  · rw [if_neg h2, Option.some.injEq, Prod.mk.injEq]
    constructor
    · rintro ⟨rfl, rfl⟩; exact ⟨by omega, by omega, rfl, by omega, rfl⟩
    · rintro ⟨-, -, rfl, -, rfl⟩; exact ⟨rfl, rfl⟩

/-- One step of the pointer scan on a readable entry (R184). -/
theorem scanPointers_succ {m : Memory} {tab c n : Nat} (h : entryReadable m tab c = true) :
    scanPointers m tab c (n + 1) =
      if entryValue m tab c = 0 then .ok none
      else (scanPointers m tab (c + 1) n).map (Option.map (BitVec.ofNat 64 (entryValue m tab c) :: ·)) := by
  have hz : (BitVec.ofNat 64 (entryValue m tab c) = 0) ↔ entryValue m tab c = 0 := by
    rw [← BitVec.toNat_inj, BitVec.toNat_ofNat, Nat.mod_eq_of_lt (entryValue_lt m tab c)]
    rfl
  rw [scanPointers, memRead64_of_readable h]
  simp only [hz]

/-- INIT that ends in a next state either fails with one of its two results, in the released state, or commits (R180, R265). -/
theorem initWith_next {cfg : Config} {s t : State} (h : initWith cfg s = .next t) :
    t = s.failed .invalidInput ∨ t = s.failed .outOfMemory ∨
      ∃ S F ptr lane,
        setParameters s.operandN s.operandBytes = some (S, F) ∧
        setEncoderInput s.hmem s.operandPtrtab s.operandN = .ok (some ptr) ∧
        fits cfg s.operandN S = true ∧
        buildLaneSums cfg s.hmem { n := s.operandN, s := S, f := F, ptr := ptr } = .ok lane ∧
        t = s.release.commit { n := s.operandN, s := S, f := F, ptr := ptr } lane := by
  unfold initWith at h
  simp only at h
  split at h
  · cases h; exact .inl rfl
  · next S F hp =>
    obtain ⟨o, ho, hk⟩ := continueWith_next h
    cases o with
    | none => cases hk; exact .inl rfl
    | some ptr =>
      simp only at hk
      split at hk
      · next hf =>
        obtain ⟨lane, hl, hk⟩ := continueWith_next hk
        cases hk
        exact .inr (.inr ⟨S, F, ptr, lane, hp, ho, hf, hl, rfl⟩)
      · cases hk; exact .inr (.inl rfl)

/-! ### ENCODE -/

/-- ENCODE that ends in a next state either finds the block not READY, or publishes (R210, R211). -/
theorem encodeWith_next {cfg : Config} {s t : State} (h : encodeWith cfg s = .next t) :
    (s.bufs = none ∧ t = s.setResult .invalidInput) ∨
      ∃ b o,
        s.bufs = some b ∧
        overlay cfg s.hmem (s.window b) { prng := Prng.seed s.argRow s.winN, sum := b.sum, prod := b.prod } = .ok o ∧
        t = s.publish
          { b with
            sum := blend cfg s.argRow s.winS.toNat (mix cfg s.argRow b.lane s.winS.toNat (o.sum, o.prod))
            prod := (mix cfg s.argRow b.lane s.winS.toNat (o.sum, o.prod)).2 }
          s.argRow := by
  unfold encodeWith at h
  split at h
  · next hb => cases h; exact .inl ⟨hb, rfl⟩
  · next b hb =>
    obtain ⟨o, ho, hk⟩ := continueWith_next h
    cases hk
    exact .inr ⟨b, o, hb, ho, rfl⟩

/-- Each pair draws two words (R147): after n pairs the generator stands 2n words further. -/
theorem overlayPairs_prng {cfg : Config} {m : Memory} {w : Window} {o p : Overlay} {n : Nat}
    (h : overlayPairs cfg m w o n = .ok p) : p.prng = { o.prng with drawn := o.prng.drawn + 2 * n } := by
  induction n generalizing p with
  | zero => cases h; rfl
  | succ n ih =>
    rw [overlayPairs] at h
    cases hq : overlayPairs cfg m w o n with
    | error e => rw [hq] at h; cases h
    | ok q =>
      rw [hq] at h
      have hq' := ih hq
      change overlayPair cfg m w n q = .ok p at h
      unfold overlayPair at h
      simp only [Prng.draw] at h
      split at h
      · cases h
        rw [hq']
        split <;> simp <;> omega
      · cases h
      · cases h

/-- One row opcode keeps the lengths of SUM and PROD. -/
theorem addSelected_length (cells : Vector Buf 3) (op : BitVec 6) (first S : Nat) (dst : Buf) :
    (addSelected cells op first S dst).length = dst.length := by
  unfold addSelected
  induction List.finRange 3 generalizing dst with
  | nil => rfl
  | cons k ks ih =>
    rw [List.foldl_cons, ih]
    split <;> simp

/-- Step 3 keeps the lengths of SUM and PROD. -/
theorem mix_length (cfg : Config) (r : Word) (t : LaneTable) (S : Nat) (acc : Buf × Buf) :
    (mix cfg r t S acc).1.length = acc.1.length ∧ (mix cfg r t S acc).2.length = acc.2.length := by
  unfold mix
  induction List.finRange 8 generalizing acc with
  | nil => exact ⟨rfl, rfl⟩
  | cons l ls ih =>
    rw [List.foldl_cons]
    exact ⟨(ih _).1.trans (addSelected_length ..), (ih _).2.trans (addSelected_length ..)⟩

end Sys2Proof.Machine
end

