-- ==== Sys2Proof/Laws/Encode.lean ====
section
/-! SUPPORT. What the steps of ENCODE leave, byte by byte (44_encode.md R213 to R216), and what INIT's phase 5 leaves of the lane table
(43_init.md R188). -/

namespace Sys2Proof.Machine

/-! ### XOR over a list -/

@[simp] theorem xorAll_nil : xorAll [] = 0 := rfl
@[simp] theorem xorAll_cons (b : Byte) (l : List Byte) : xorAll (b :: l) = b ^^^ xorAll l := rfl

@[simp] theorem xorAll_singleton (b : Byte) : xorAll [b] = b := BitVec.xor_zero

theorem xorAll_append (l m : List Byte) : xorAll (l ++ m) = xorAll l ^^^ xorAll m := by
  induction l with
  | nil => simp
  | cons b l ih => rw [List.cons_append, xorAll_cons, xorAll_cons, ih, BitVec.xor_assoc]

/-! ### Row opcodes -/

/-- A conditional buf_add of S bytes, byte by byte. -/
theorem bufAdd_cell {dst src : Buf} {S i : Nat} (c : Bool) (hl : src.length = S) (hi : i < S) :
    (if c then bufAdd dst src S else dst)[i]? = dst[i]?.map (· ^^^ if c then src[i]?.getD 0 else 0) := by
  cases c
  · cases h : dst[i]? <;> simp [h]
  · simp only [if_true, bufAdd_getElem?, hl, hi, and_self]

/-- The cells a row opcode selects are added, byte by byte (R97). -/
theorem addSelected_getElem? {cells : Vector Buf 3} {S i : Nat} (op : BitVec 6) (first : Nat) (dst : Buf)
    (hl : ∀ k, (cells.get k).length = S) (hi : i < S) :
    (addSelected cells op first S dst)[i]? = dst[i]?.map (· ^^^ selectedByte cells op first i) := by
  unfold addSelected selectedByte
  induction List.finRange 3 generalizing dst with
  | nil => cases h : dst[i]? <;> simp [h]
  | cons k ks ih =>
    rw [List.foldl_cons, ih, bufAdd_cell _ (hl k) hi, List.map_cons, xorAll_cons, Option.map_map]
    congr 1
    exact funext fun b => BitVec.xor_assoc ..

/-- Step 3, byte by byte (R215). -/
theorem mix_getElem? {t : LaneTable} {S i : Nat} (cfg : Config) (r : Word) (acc : Buf × Buf)
    (hl : ∀ l k, (laneCell t l k).length = S) (hi : i < S) :
    (mix cfg r t S acc).1[i]? = acc.1[i]?.map (· ^^^ mixByte cfg r t 0 i) ∧
      (mix cfg r t S acc).2[i]? = acc.2[i]?.map (· ^^^ mixByte cfg r t 3 i) := by
  unfold mix mixByte
  induction List.finRange 8 generalizing acc with
  | nil => constructor <;> [cases h : acc.1[i]?; cases h : acc.2[i]?] <;> simp [h]
  | cons l ls ih =>
    rw [List.foldl_cons, List.map_cons, xorAll_cons, List.map_cons, xorAll_cons, (ih _).1, (ih _).2, rowopApply,
      addSelected_getElem? _ _ _ (hl l) hi, addSelected_getElem? _ _ _ (hl l) hi, Option.map_map, Option.map_map]
    constructor <;> (congr 1; exact funext fun b => BitVec.xor_assoc ..)

/-- Step 4, byte by byte (R216). -/
theorem blend_getElem? {sum prod : Buf} {S i : Nat} (cfg : Config) (r : Word) (hp : prod.length = S) (hi : i < S) :
    (blend cfg r S (sum, prod))[i]? = sum[i]?.map (· ^^^ gfMul (cfg.rx r) (prod[i]?.getD 0)) := by
  unfold blend
  rw [bufMuladd_getElem?, if_pos ⟨hi, show i < prod.length by omega⟩]

theorem blend_length (cfg : Config) (r : Word) (S : Nat) (acc : Buf × Buf) : (blend cfg r S acc).length = acc.1.length :=
  bufMuladd_length _ _ _ _

/-! ### The overlay -/

/-- A column of the Window has at most S bytes. -/
theorem Window.len_le {w : Window} (h : w.f ≤ w.s) (c : Nat) : w.len c ≤ w.s := by unfold Window.len; split <;> omega

/-- The copy of an original that starts a sum is its zero-extended view (R65, R126). -/
theorem copy_original {m : Memory} {w : Window} {c : Nat} {bs : List Byte} (hf : w.f ≤ w.s) (h : readOriginal m w c = .ok bs) :
    (bufCopyZt bs (w.len c) w.s).length = w.s ∧
      ∀ i, i < w.s → (bufCopyZt bs (w.len c) w.s)[i]? = some (origByteD m w c i) := by
  obtain ⟨hl, hb⟩ := readOriginal_ok h
  refine ⟨bufCopyZt_length (w.len_le hf c) (by omega), fun i hi => ?_⟩
  rw [bufCopyZt_getElem? (by omega)]
  by_cases hc : i < w.len c
  · have hs : i < bs.length := by omega
    rw [if_pos hc, origByteD, ← hb i hc, List.getElem?_eq_getElem hs, Option.getD_some]
  · rw [if_neg hc, if_pos hi, origByteD, origByte, if_neg hc, if_pos hi, Option.getD_some]

/-- An original added to a sum adds its zero-extended view (R65, R124). -/
theorem add_original {m : Memory} {w : Window} {c : Nat} {bs : List Byte} {dst : Buf} (h : readOriginal m w c = .ok bs) :
    ∀ i, i < w.s → (bufAdd dst bs (w.len c))[i]? = dst[i]?.map (· ^^^ origByteD m w c i) := by
  obtain ⟨hl, hb⟩ := readOriginal_ok h
  intro i hi
  rw [bufAdd_getElem?]
  by_cases hc : i < w.len c
  · rw [if_pos ⟨hc, by omega⟩, hb i hc]; rfl
  · rw [if_neg fun h => hc h.1, origByteD, origByte, if_neg hc, if_pos hi]
    cases dst[i]? <;> simp

/-- What n + 1 pairs leave in SUM and PROD (R213). -/
theorem overlayPairs_getElem? {cfg : Config} {m : Memory} {w : Window} {o p : Overlay} {n : Nat} (hf : w.f ≤ w.s)
    (h0 : o.prng.drawn = 0) (h : overlayPairs cfg m w o (n + 1) = .ok p) :
    p.sum.length = w.s ∧ p.prod.length = w.s ∧ ∀ i, i < w.s →
      p.sum[i]? = some (xorAll ((List.range (n + 1)).map fun j =>
        origByteD m w (columnOf (cfg.prng o.prng.row o.prng.count (2 * j)) w.n) i)) ∧
      p.prod[i]? = some (xorAll ((List.range (n + 1)).map fun j =>
        origByteD m w (columnOf (cfg.prng o.prng.row o.prng.count (2 * j + 1)) w.n) i)) := by
  induction n generalizing p with
  | zero =>
    change overlayPair cfg m w 0 o = .ok p at h
    unfold overlayPair at h
    simp only [Prng.draw, h0] at h
    split at h
    · next a b ha hb =>
      cases h
      obtain ⟨ha1, ha2⟩ := copy_original hf ha
      obtain ⟨hb1, hb2⟩ := copy_original hf hb
      refine ⟨ha1, hb1, fun i hi => ?_⟩
      simp only [if_true]
      rw [ha2 i hi, hb2 i hi]
      simp
    · cases h
    · cases h
  | succ n ih =>
    rw [overlayPairs] at h
    cases hq : overlayPairs cfg m w o (n + 1) with
    | error e => rw [hq] at h; cases h
    | ok q =>
      rw [hq] at h
      obtain ⟨hs, hp, hby⟩ := ih hq
      have hg := overlayPairs_prng hq
      change overlayPair cfg m w (n + 1) q = .ok p at h
      unfold overlayPair at h
      simp only [Prng.draw, hg, h0, Nat.zero_add, Nat.add_eq_zero_iff, one_ne_zero, and_false, if_false] at h
      split at h
      · next a b ha hb =>
        cases h
        refine ⟨by rw [bufAdd_length, hs], by rw [bufAdd_length, hp], fun i hi => ?_⟩
        rw [add_original ha i hi, add_original hb i hi, (hby i hi).1, (hby i hi).2,
          show List.range (n + 1 + 1) = List.range (n + 1) ++ [n + 1] from List.range_succ, List.map_append, xorAll_append,
          List.map_append, xorAll_append]
        simp only [Option.map_some, List.map_cons, List.map_nil, xorAll_singleton, and_self]
      · cases h
      · cases h

/-- With every drawn original readable, the overlay answers. -/
theorem overlayPairs_of_readable {cfg : Config} {m : Memory} {w : Window} {o : Overlay} (h0 : o.prng.drawn = 0)
    (hp : ∀ c, c < w.n → c < w.ptr.length) (hn : 0 < w.n) (n : Nat)
    (hr : ∀ j, j < 2 * n → w.readable m (columnOf (cfg.prng o.prng.row o.prng.count j) w.n) = true) :
    ∃ p, overlayPairs cfg m w o n = .ok p := by
  induction n with
  | zero => exact ⟨o, rfl⟩
  | succ n ih =>
    obtain ⟨q, hq⟩ := ih fun j hj => hr j (by omega)
    have hg := overlayPairs_prng hq
    have hc : ∀ x, columnOf x w.n < w.ptr.length := fun x => hp _ (Nat.mod_lt _ hn)
    obtain ⟨a, ha⟩ := readOriginal_of_readable (hc _) (hr (2 * n) (by omega))
    obtain ⟨b, hb⟩ := readOriginal_of_readable (hc _) (hr (2 * n + 1) (by omega))
    rw [overlayPairs, hq]
    change ∃ p, overlayPair cfg m w n q = .ok p
    unfold overlayPair
    simp only [Prng.draw, hg, h0, Nat.zero_add, ha, hb]
    exact ⟨_, rfl⟩

/-! ### The lane sums -/

theorem vector_get_set_self {α : Type} {n : Nat} (t : Vector α n) (l : Fin n) (x : α) : (t.set l x).get l = x := by
  rw [Vector.get_eq_getElem]; exact Vector.getElem_set_self l.isLt

theorem vector_get_set_ne {α : Type} {n : Nat} (t : Vector α n) {l j : Fin n} (x : α) (h : l ≠ j) :
    (t.set l x).get j = t.get j := by
  rw [Vector.get_eq_getElem, Vector.get_eq_getElem]
  exact Vector.getElem_set_ne l.isLt j.isLt fun e => h (Fin.ext e)

/-- The lane table after one more column: its lane's three cells, byte by byte, and every other cell as before (R188). -/
theorem addColumn_cell (cfg : Config) (t : LaneTable) (c : Nat) (src : Buf) (len : Nat) (l : Fin 8) (k : Fin 3) :
    laneCell (addColumn cfg t c src len) l k =
      if l = laneOf c then
        bufMuladd (laneCell t l k) (gfPow (cfg.cx c) k.val) src len
      else laneCell t l k := by
  have h1 : ∀ b : Byte, gfMul 1 b = b ∧ gfMul b 1 = b := by decide +kernel
  have hadd : ∀ d s n, bufMuladd d 1 s n = bufAdd d s n := by
    intro d s n
    unfold bufMuladd bufAdd
    congr 1
    funext x y
    rw [(h1 y).1]
  unfold addColumn laneCell
  by_cases h : l = laneOf c
  · subst h
    rw [if_pos rfl]
    simp only [vector_get_set_self]
    fin_cases k
    · exact (hadd _ _ _).symm
    · show bufMuladd _ (cfg.cx c) src len = bufMuladd _ (gfMul (cfg.cx c) 1) src len
      rw [(h1 _).2]; rfl
    · show bufMuladd _ (gfSqr (cfg.cx c)) src len = bufMuladd _ (gfMul (cfg.cx c) (gfMul (cfg.cx c) 1)) src len
      rw [(h1 _).2]; rfl
  · rw [if_neg h]
    simp only [vector_get_set_ne _ _ (Ne.symm h)]

end Sys2Proof.Machine
end

