-- ==== Sys2Proof/Laws/PerInstr.lean ====
section
/-! SUPPORT. Families of facts about every instruction as syntax, one lemma per constructor (LAWS.json). -/

namespace Sys2Proof.Laws

/-- The width in bits of an item's format (30_encoding.md R90). -/
def itemWidth : Item → Nat
  | .cmd32 _ => 32
  | .rowop6 _ => 6

/-- The number an item is. -/
def itemNumber : Item → Nat
  | .cmd32 w => w.toNat
  | .rowop6 op => op.toNat

/-- An instruction's table bits name its item again: no bit of an encoding is lost on the way through the opcode table's numbering. -/
def EncodingNamesItem.Statement (i : Instr) : Prop :=
  itemOfTable (itemWidth (encode i)) (itemNumber (encode i)) = some (encode i)

theorem EncodingNamesItem.init : EncodingNamesItem.Statement .init := by
  unfold EncodingNamesItem.Statement; decide

theorem EncodingNamesItem.encode : EncodingNamesItem.Statement .encode := by
  unfold EncodingNamesItem.Statement; decide

theorem EncodingNamesItem.free : EncodingNamesItem.Statement .free := by
  unfold EncodingNamesItem.Statement; decide

theorem EncodingNamesItem.illegal (w : Word) : EncodingNamesItem.Statement (.illegal w) := by
  simp [EncodingNamesItem.Statement, Sys2Proof.encode, itemWidth, itemNumber, itemOfTable]

theorem EncodingNamesItem.rowop (op : BitVec 6) : EncodingNamesItem.Statement (.rowop op) := by
  simp [EncodingNamesItem.Statement, Sys2Proof.encode, itemWidth, itemNumber, itemOfTable, rowopBits]

end Sys2Proof.Laws
end

