-- ==== Sys2Proof/Laws/Step.lean ====
section
/-! SUPPORT. What a step can be, said once. -/

namespace Sys2Proof.Machine

theorem step_idle {s : State} (hr : s.engine.rowop = none) (hq : s.queue = []) : step s = .next s := by
  unfold step State.fetch; rw [hr, hq]

theorem step_rowop {s : State} {op : BitVec 6} (hr : s.engine.rowop = some op) :
    step s = exec (.rowop op) { s with engine := { s.engine with rowop := none } } := by
  unfold step State.fetch; rw [hr]; rfl

theorem step_command {s : State} {w : Word} {q : List HostMove} (h : s.NextMove (hostW .cmd w) q) :
    step s = exec (decodeCmd w) { s with queue := q } := by
  unfold step State.fetch; rw [h.1, h.2]; rfl

theorem step_move {s : State} {m : HostMove} {q : List HostMove} (h : s.NextMove m q) (hm : classify m = .move m) :
    step s = hostMove config m { s with queue := q } := by
  unfold step State.fetch; rw [h.1, h.2]; simp only [hm]

/-- A host move is a command word, or itself. -/
theorem classify_eq (m : HostMove) : (∃ w, m = hostW .cmd w ∧ classify m = .item (.cmd32 w)) ∨ classify m = .move m := by
  cases m with
  | write size off v =>
    by_cases h : size = .word ∧ off = Reg.cmd.offset
    · exact .inl ⟨v, by rw [h.1, h.2]; rfl, if_pos h⟩
    · exact .inr (if_neg h)
  | read size off => exact .inr rfl
  | hmemStore a b => exact .inr rfl
  | hmemUnmap a => exact .inr rfl
  | reset => exact .inr rfl

/-- Every step is one of four: nothing, a waiting row opcode, a command, or another move of the host. -/
theorem step_cases (s : State) :
    (s.engine.rowop = none ∧ s.queue = [] ∧ step s = .next s) ∨
    (∃ op, s.engine.rowop = some op ∧
      step s = exec (.rowop op) { s with engine := { s.engine with rowop := none } }) ∨
    (∃ w q, s.NextMove (hostW .cmd w) q ∧ step s = exec (decodeCmd w) { s with queue := q }) ∨
    (∃ m q, s.NextMove m q ∧ classify m = .move m ∧ step s = hostMove config m { s with queue := q }) := by
  cases hr : s.engine.rowop with
  | some op => exact .inr (.inl ⟨op, rfl, step_rowop hr⟩)
  | none =>
    cases hq : s.queue with
    | nil => exact .inl ⟨rfl, rfl, step_idle hr hq⟩
    | cons m q =>
      rcases classify_eq m with ⟨w, rfl, -⟩ | hm
      · exact .inr (.inr (.inl ⟨w, q, ⟨hr, hq⟩, step_command ⟨hr, hq⟩⟩))
      · exact .inr (.inr (.inr ⟨m, q, ⟨hr, hq⟩, hm, step_move ⟨hr, hq⟩ hm⟩))

end Sys2Proof.Machine
end

