-- ==== Sys2Proof/Laws/Xacc.lean ====
section
/-! SUPPORT. What one operation of an XOR accumulator answers (42_xor_accumulator.md R162 to R165). -/

namespace Sys2Proof.Machine

/-- A flush that answers has added the XOR of its queue, and leaves the queue empty (R163). -/
theorem Xacc.flush_ok_iff {x y : Xacc} {src : Sources} :
    x.flush src = .ok y ↔
      ∃ q, src.xorAll x.queue = .ok q ∧ y = { dest := bufAdd x.dest q src.window.s, queue := [] } := by
  unfold Xacc.flush
  cases src.xorAll x.queue with
  | error e => exact ⟨(fun h => by cases h), fun ⟨_, h, _⟩ => by cases h⟩
  | ok q =>
    constructor
    · intro h; cases h; exact ⟨q, rfl, rfl⟩
    · rintro ⟨_, h, rfl⟩; cases h; rfl

/-- Flushing an empty queue changes nothing but to add S zero bytes (R163). -/
theorem Xacc.flush_empty {x : Xacc} (src : Sources) (h : x.queue = []) :
    x.flush src = .ok { dest := bufAdd x.dest (zeroBuf src.window.s) src.window.s, queue := [] } :=
  Xacc.flush_ok_iff.mpr ⟨_, by rw [h]; rfl, rfl⟩

/-- An ADD queues the source, or flushes it with the rest (R162). -/
theorem Xacc.add_cases (x : Xacc) (depth : Nat) (src : Sources) (r : SrcRef) :
    (x.queue.length + 1 ≠ depth ∧ x.add depth src r = .ok { x with queue := x.queue ++ [r] }) ∨
      (x.queue.length + 1 = depth ∧ x.add depth src r = Xacc.flush { x with queue := x.queue ++ [r] } src) := by
  unfold Xacc.add
  simp only [List.length_append, List.length_cons, List.length_nil]
  by_cases h : x.queue.length + 1 = depth
  · exact .inr ⟨h, if_pos h⟩
  · exact .inl ⟨h, if_neg h⟩

/-- The XOR over a queue has S bytes (R163). -/
theorem Sources.xorAll_length {src : Sources} {l : List SrcRef} {q : Buf} (h : src.xorAll l = .ok q) : q.length = src.window.s := by
  induction l generalizing q with
  | nil => cases h; exact zeroBuf_length _
  | cons r rs ih =>
    rw [Sources.xorAll] at h
    cases hb : src.bytes r with
    | error e => rw [hb] at h; cases h
    | ok b =>
      cases hq : src.xorAll rs with
      | error e => rw [hb, hq] at h; cases h
      | ok x =>
        rw [hb, hq] at h
        cases h
        rw [bufAdd_length, ih hq]

/-- The final column goes to the destination directly (R165). -/
theorem Xacc.addDirect_ok {x y : Xacc} {src : Sources} {c : Nat} (h : x.addDirect src c = .ok y) :
    ∃ b, readOriginal src.mem src.window c = .ok b ∧ y = { x with dest := bufAdd x.dest b (src.window.len c) } := by
  unfold Xacc.addDirect at h
  cases hb : readOriginal src.mem src.window c with
  | error e => rw [hb] at h; cases h
  | ok b => rw [hb] at h; cases h; exact ⟨b, rfl, rfl⟩

end Sys2Proof.Machine
end

