-- ==== Sys2Proof/Tests/Slice0.lean ====
section
/-! SUPPORT. Tests on the spec's own vectors (95_test_vectors.md) and, for every statement with hypotheses, a witness that meets them. -/

namespace Sys2Proof.Tests

open Sys2Proof Sys2Proof.Machine

/-! ### WellFormed: an ill-formed term for each word that selects a command -/

theorem test_wellFormed_refuses_illegal_init : (Instr.illegal 0x00000001#32).wellFormed = false := by decide
theorem test_wellFormed_refuses_illegal_encode : (Instr.illegal 0x00000002#32).wellFormed = false := by decide
theorem test_wellFormed_refuses_illegal_free : (Instr.illegal 0x00000003#32).wellFormed = false := by decide
theorem test_wellFormed_accepts_illegal : (Instr.illegal 0x00000102#32).wellFormed = true := by decide

/-! ### Decoding: words written out from R91, R92 and the table of section 2.2 -/

theorem test_decode_init : decodeCmd 0b00000000000000000000000000000001#32 = .init := by decide
theorem test_decode_encode : decodeCmd 0b00000000000000000000000000000010#32 = .encode := by decide
theorem test_decode_free : decodeCmd 0b00000000000000000000000000000011#32 = .free := by decide
theorem test_decode_bit8_illegal :
    decodeCmd 0b00000000000000000000000100000010#32 = .illegal 0x00000102#32 := by decide
theorem test_decode_bit31_illegal : decodeCmd 0x80000001#32 = .illegal 0x80000001#32 := by decide
theorem test_decode_op4_illegal : decodeCmd 0x00000004#32 = .illegal 0x00000004#32 := by decide
theorem test_decode_rowop_7bit : decodeTableWord 8 0b01000111 = some (.rowop 0b000111#6) := by decide
theorem test_decode_rowop_all : decodeTableWord 8 0b00111111 = some (.rowop 0b111111#6) := by decide
theorem test_decode_no_format : decodeTableWord 40 1 = none := by decide
theorem test_encode_words :
    encode .init = .cmd32 0x00000001#32 ∧ encode .encode = .cmd32 0x00000002#32 ∧ encode .free = .cmd32 0x00000003#32 := by decide

/-! ### GF(256) and buffers (section 2.1) -/

theorem test_gfMul_vectors :
    gfMul 0x57 0x83 = 0xC1#8 ∧ gfMul 0x57 0x13 = 0xFE#8 ∧ gfMul 0x02 0x87 = 0x15#8 ∧ gfMul 0x80 0x02 = 0x1B#8 ∧
      gfMul 0x53 0xCA = 0x01#8 ∧ gfMul 0x00 0xFF = 0x00#8 ∧ gfMul 0x01 0xA7 = 0xA7#8 ∧ gfMul 0xFF 0xFF = 0x13#8 := by decide
theorem test_gfSqr_vectors :
    gfSqr 0x03 = 0x05#8 ∧ gfSqr 0x57 = 0xA5#8 ∧ gfSqr 0x80 = 0x9A#8 ∧ gfSqr 0xFF = 0x13#8 := by decide
theorem test_bufAdd :
    bufAdd [1, 2, 3, 4] [0x57, 0x00, 0xFF, 0x80] 4 = [0x56, 0x02, 0xFC, 0x84] ∧
      bufAdd [1, 2, 3, 4] [0x57, 0x00, 0xFF, 0x80] 2 = [0x56, 0x02, 0x03, 0x04] := by decide
theorem test_bufMuladd : bufMuladd [1, 2, 3, 4] 0x83 [0x57, 0x00, 0xFF, 0x80] 4 = [0xC0, 0x02, 0x7C, 0x05] := by decide
theorem test_bufCopyZt : bufCopyZt [0x55, 0x66, 0x77] 3 4 = [0x55, 0x66, 0x77, 0x00] := by decide

/-! ### The test instantiation T0 and a window (section 0, vector L1) -/

/-- T0, with the overrides a vector states. It is no configuration of the model. -/
def t0 : Config where
  cx c := BitVec.ofNat 8 (c % 255 + 1)
  rx r := BitVec.ofNat 8 (r.toNat + 2)
  rowOp l r := BitVec.ofNat 6 ((7 * l.val + 13 * r.toNat + 1) % 63 + 1)
  prng r n i := BitVec.ofNat 32 (r.toNat * 7919 + n.toNat * 104729 + i * 2654435761 + 12345)
  nmax := 64
  smax := 4096
  xaccB := 4

/-- Host memory holding `bytes` from `a` upward. -/
def bytesAt (a : Nat) : List Nat → Memory
  | [] => []
  | b :: bs => (a, BitVec.ofNat 8 b) :: bytesAt (a + 1) bs

/-- The host memory of program P1. -/
def memP1 : Memory :=
  bytesAt 0x2000 [0x00, 0x30, 0, 0, 0, 0, 0, 0, 0x00, 0x31, 0, 0, 0, 0, 0, 0] ++
    bytesAt 0x3000 [0x11, 0x22, 0x33, 0x44] ++ bytesAt 0x3100 [0x55, 0x66, 0x77]

/-- A reset block with the operands of INIT set. -/
def operands (n bytes tab : Nat) (m : Memory) : State :=
  { State.reset with
    argN := BitVec.ofNat 32 n
    argBytesLo := BitVec.ofNat 32 bytes
    argBytesHi := BitVec.ofNat 32 (bytes / 2 ^ 32)
    argPtrtabLo := BitVec.ofNat 32 tab
    argPtrtabHi := BitVec.ofNat 32 (tab / 2 ^ 32)
    hmem := m }

/-- What a test looks at after a step. -/
def after {α : Type} (o : Host.Outcome State Fault Refusal) (f : State → α) : Option α :=
  match o with
  | .next t => some (f t)
  | .fault _ => none
  | .refused _ => none

/-- A READY block of window L1 (N = 2, S = 4, F = 3), its lane cells as the vector gives them. -/
def readyL1 (row : Nat) : State :=
  { operands 2 7 0x2000 memP1 with
    argRow := BitVec.ofNat 32 row
    winN := 2
    winS := 4
    winF := 3
    bufs := some
      { ptr := [0x3000, 0x3100]
        lane :=
          #v[#v[[0x11, 0x22, 0x33, 0x44], [0x11, 0x22, 0x33, 0x44], [0x11, 0x22, 0x33, 0x44]],
            #v[[0x55, 0x66, 0x77, 0x00], [0xAA, 0xCC, 0xEE, 0x00], [0x4F, 0x83, 0xC7, 0x00]],
            Vector.replicate 3 (zeroBuf 4), Vector.replicate 3 (zeroBuf 4), Vector.replicate 3 (zeroBuf 4),
            Vector.replicate 3 (zeroBuf 4), Vector.replicate 3 (zeroBuf 4), Vector.replicate 3 (zeroBuf 4)]
        sum := [1, 2, 3, 4]
        prod := [5, 6, 7, 8] } }

/-! ### INIT (sections 2.4, 2.5, R193) -/

theorem test_parameters :
    setParameters 2 7 = some (4, 3) ∧ setParameters 3 4 = none ∧ setParameters 4 5 = none ∧ setParameters 5 9 = some (2, 1) ∧
      setParameters 0 5 = none ∧ setParameters 2 1 = none ∧
      setParameters 1 (2 ^ 64 - 1) = some (2 ^ 64 - 1, 2 ^ 64 - 1) := by decide
theorem test_ptr64 :
    memRead64 (bytesAt 8 [0x88, 0x77, 0x66, 0x55, 0x44, 0x33, 0x22, 0x11]) 8 = .ok 0x1122334455667788#64 := by
  rw [memRead64_of_readable (m := bytesAt 8 [0x88, 0x77, 0x66, 0x55, 0x44, 0x33, 0x22, 0x11]) (tab := 8) (c := 0) (by decide)]
  decide
theorem test_init_lanes :
    after (initWith t0 (operands 2 7 0x2000 memP1)) (fun t => t.bufs.map Buffers.lane) =
      some ((readyL1 0).bufs.map Buffers.lane) := by decide +kernel
theorem test_init_out_of_memory :
    after (initWith t0 (operands 2 8193 0x2000 memP1)) (fun t => (t.status, t.winS, t.bufs)) = some (2, 0, none) := by
  decide +kernel

/-! ### ENCODE (sections 2.6, 2.7) -/

theorem test_encode_row0 :
    after (encodeWith t0 (readyL1 0)) (fun t => (t.status, t.bufs.map fun b => (b.sum, b.prod))) =
      some (0x0000000C#32, some ([0x99, 0xAA, 0xBB, 0xCC], [0x44, 0x44, 0x44, 0x44])) := by decide +kernel
theorem test_encode_row3 :
    after (encodeWith t0 (readyL1 3)) (fun t => (t.symRow, t.bufs.map Buffers.sum)) = some (3, some [0x46, 0x8D, 0x3D, 0x00]) := by
  decide +kernel

/-! ### FREE, ILLEGAL, ROWOP -/

theorem test_free : after (exec .free (readyL1 0)) (fun t => (t.status, t.winN, t.argN, t.bufs)) = some (0, 0, 2, none) := by
  decide +kernel
theorem test_illegal_keeps_ready : after (exec (.illegal 0xFF#32) (readyL1 0)) State.status = some 0x00000005#32 := by
  decide +kernel
theorem test_rowop_2a :
    after (exec (.rowop 0x2A#6) { readyL1 0 with engine := { Engine.rest with lane := 1 } })
      (fun t => t.bufs.map fun b => (b.sum, b.prod)) =
      some (some ([0xAB, 0xCE, 0xED, 0x04], [0x1F, 0xE3, 0xB7, 0x08])) := by decide +kernel

/-! ### The accumulators (section 2.3, vector X1) -/

/-- Two-byte sources A = `10 20`, B = `03 04`, C = `FF 00` as cells of lane 0. -/
def sourcesX1 : Sources where
  mem := []
  window := { n := 1, s := 2, f := 2, ptr := [] }
  lane := (Vector.replicate 8 (Vector.replicate 3 (zeroBuf 2))).set 0 #v[[0x10, 0x20], [0x03, 0x04], [0xFF, 0x00]]

/-- What a test looks at of an accumulator. -/
def xaccView (e : Except Stop Xacc) : Option (Buf × Nat) :=
  match e with
  | .ok x => some (x.dest, x.queue.length)
  | .error _ => none

theorem test_xacc_flush_when_full :
    xaccView (Xacc.add { dest := [0, 0], queue := [.cell 0 0] } 2 sourcesX1 (.cell 0 1)) = some ([0x13, 0x24], 0) := by
  decide +kernel
theorem test_xacc_finalize :
    xaccView (Xacc.finalize { dest := [0x13, 0x24], queue := [.cell 0 2] } sourcesX1) = some ([0xEC, 0x24], 0) := by
  decide +kernel

/-! ### Registers and the aperture (section 2.9) -/

theorem test_reg_offsets :
    Reg.all.map Reg.offset =
      [0x000, 0x004, 0x008, 0x00C, 0x010, 0x014, 0x018, 0x01C, 0x020, 0x024, 0x028, 0x02C, 0x030, 0x034] := by decide
theorem test_aperture_word :
    after (hostMove t0 (.read .word 0x1000) { readyL1 0 with symValid := true, symBytes := 4 }) State.readData =
      some 0x04030201#32 := by decide +kernel
theorem test_aperture_beyond_smax : after (hostMove t0 (.read .word 0x2000) (readyL1 0)) State.readData = some 0 := by
  decide +kernel

/-! ### A block of one one-byte original, which every configuration can hold

The configuration of the machine is opaque, so its witnesses use N = 1 and S = F = 1: R6 gives NMAX and SMAX at least 1, and every word
modulo 1 is column 0. Statements that need a larger symbol are stated for every configuration, with a witness under T0. -/

/-- Host memory with the table at 0x2000 and the byte `v` at 0x3000, or both 0x100 higher. -/
def mem1 (high : Bool) (v : Byte) : Memory :=
  match high with
  | false => bytesAt 0x2000 [0x00, 0x30, 0, 0, 0, 0, 0, 0] ++ [(0x3000, v)]
  | true => bytesAt 0x2100 [0x00, 0x31, 0, 0, 0, 0, 0, 0] ++ [(0x3100, v)]

/-- The operands of INIT for it. -/
def init1 (high : Bool) (v : Byte) : State := operands 1 1 (if high then 0x2100 else 0x2000) (mem1 high v)

/-- Its Window. -/
def win1 (high : Bool) : Window := { n := 1, s := 1, f := 1, ptr := [if high then 0x3100 else 0x3000] }

/-- The block after that INIT. -/
def ready1 (high : Bool) (v : Byte) : State :=
  (init1 high v).release.commit (win1 high) (addColumn config (zeroLanes 1) 0 [v] 1)

/-- The buffers of `ready1`. -/
def bufs1 (high : Bool) (v : Byte) : Buffers where
  ptr := (win1 high).ptr
  lane := addColumn config (zeroLanes 1) 0 [v] 1
  sum := freeBytes 0 1
  prod := freeBytes 1 1

theorem ready1_bufs (high : Bool) (v : Byte) : (ready1 high v).bufs = some (bufs1 high v) := rfl

theorem fits1 : fits config 1 1 = true := by simp [fits, config_legal.nmax_pos, config_legal.smax_pos]

theorem init1_operandN (high : Bool) (v : Byte) : (init1 high v).operandN = 1 := by cases high <;> rfl
theorem init1_operandBytes (high : Bool) (v : Byte) : (init1 high v).operandBytes = 1 := by
  revert high v; decide +kernel
theorem init1_initS (high : Bool) (v : Byte) : (init1 high v).initS = 1 := by
  rw [State.initS, init1_operandN, init1_operandBytes]
theorem init1_inAddressSpace (high : Bool) (v : Byte) : inAddressSpace (init1 high v).operandPtrtab (8 * 1) = true := by
  revert high v; decide +kernel
theorem init1_entryReadable (high : Bool) (v : Byte) :
    entryReadable (init1 high v).hmem (init1 high v).operandPtrtab 0 = true := by revert high v; decide +kernel
theorem init1_entryValue (high : Bool) (v : Byte) :
    entryValue (init1 high v).hmem (init1 high v).operandPtrtab 0 = if high then 0x3100 else 0x3000 := by
  revert high v; decide +kernel

theorem init1_next (high : Bool) (v : Byte) : exec .init (init1 high v) = .next (ready1 high v) := by
  have hp : setParameters (init1 high v).operandN (init1 high v).operandBytes = some (1, 1) := by
    rw [init1_operandN, init1_operandBytes]; decide
  have hs : setEncoderInput (init1 high v).hmem (init1 high v).operandPtrtab (init1 high v).operandN =
      .ok (some (win1 high).ptr) := by
    rw [init1_operandN, setEncoderInput, if_pos (init1_inAddressSpace high v), scanPointers_succ (init1_entryReadable high v),
      init1_entryValue]
    cases high <;> rfl
  have hf : fits config (init1 high v).operandN 1 = true := fits1
  have hb : buildLaneSums config (init1 high v).hmem
      { n := (init1 high v).operandN, s := 1, f := 1, ptr := (win1 high).ptr } =
      .ok (addColumn config (zeroLanes 1) 0 [v] 1) := by cases high <;> rfl
  rw [exec_init, initWith]
  simp only [hp, hs, continueWith_ok, hf, hb, if_true]
  rfl

theorem column_mod_one (w : Word) : columnOf w 1 = 0 := Nat.mod_one _

theorem drawn1 (r : Word) (j : Nat) : drawnColumn config r 1 j = 0 := column_mod_one _

theorem overlay1 (high : Bool) (v : Byte) (o : Overlay) : ∃ p, overlay config (mem1 high v) (win1 high) o = .ok p := by
  have hr : readOriginal (mem1 high v) (win1 high) 0 = .ok [v] := by cases high <;> rfl
  have ha : (win1 high).inAddressSpace = true := by cases high <;> decide
  have hn : (win1 high).n = 1 := rfl
  have hc : pairCount (win1 high).n = 0 + 1 := by rw [hn]; decide
  unfold overlay
  rw [if_pos ha, hc, overlayPairs, overlayPairs]
  show ∃ p, overlayPair config (mem1 high v) (win1 high) 0 o = .ok p
  unfold overlayPair
  simp only [Prng.draw, hn, column_mod_one, hr]
  exact ⟨_, rfl⟩

theorem encode1_next (high : Bool) (v : Byte) : ∃ u, exec .encode (ready1 high v) = .next u := by
  obtain ⟨p, hp⟩ := overlay1 high v
    { prng := Prng.seed (ready1 high v).operandRow (ready1 high v).winN, sum := freeBytes 0 1, prod := freeBytes 1 1 }
  rw [exec_encode, encodeWith, ready1_bufs]
  simp only
  exact ⟨_, congrArg (fun x => continueWith x _) hp⟩

theorem ready1_buffersOk (v : Byte) : (ready1 false v).BuffersOk config (bufs1 false v) where
  n_pos := le_refl 1
  n_le := config_legal.nmax_pos
  s_pos := le_refl 1
  s_le := config_legal.smax_pos
  f_pos := le_refl 1
  f_le := le_refl 1
  ptr_length := rfl
  ptr_ne_zero p hp := by obtain rfl : p = 0x3000#64 := List.mem_singleton.mp hp; decide
  regions := show (win1 false).inAddressSpace = true by decide
  cell_length := by intro l k; fin_cases l <;> fin_cases k <;> rfl
  empty_lane := by
    intro l k h
    have h : 1 ≤ l.val := h
    fin_cases l <;> fin_cases k <;> first | exact absurd h (by decide) | rfl
  sum_length := rfl
  prod_length := rfl

/-- A block without buffers, at rest, meets the invariant. -/
theorem idle_inv {s : State} (hm : s.hmem.wf = true) (hb : s.bufs = none) (hw : s.winN = 0 ∧ s.winS = 0 ∧ s.winF = 0)
    (hv : s.symValid = false) (hy : s.symRow = 0 ∧ s.symBytes = 0 ∧ s.symPtr = 0) (he : s.engine = Engine.rest) : s.Inv config where
  memory := hm
  idle _ := ⟨hw.1, hw.2.1, hw.2.2, hv⟩
  buffers b h := by rw [hb] at h; cases h
  no_symbol _ := hy
  symbol h := by rw [hv] at h; cases h
  rest := by rw [he]; exact ⟨rfl, rfl, rfl, rfl⟩

theorem ready1_inv (v : Byte) : (ready1 false v).Inv config where
  memory := rfl
  idle h := by cases h
  buffers b h := by
    obtain rfl : bufs1 false v = b := by simpa [ready1_bufs] using h
    exact ready1_buffersOk v
  no_symbol _ := ⟨rfl, rfl, rfl⟩
  symbol h := by cases h
  rest := ⟨rfl, rfl, rfl, rfl⟩

theorem ready1_drawnReadable (v : Byte) : (ready1 false v).DrawnReadable config (bufs1 false v) := by
  intro j _
  rw [show (ready1 false v).winN = 1 from rfl, drawn1]
  rfl

theorem ready1_lanesCurrent (v : Byte) :
    LanesCurrent config (ready1 false v).hmem ((ready1 false v).window (bufs1 false v)) (bufs1 false v).lane := by
  have h1 : ∀ b : Byte, gfMul 1 b = b ∧ gfMul b 1 = b := by decide +kernel
  intro l k i hi
  obtain rfl : i = 0 := by have : i < 1 := hi; omega
  have hb : ∀ x : Byte, laneSumByte config (mem1 false v) (win1 false) 0 k 0 = x ↔ gfMul (gfPow (config.cx 0) k.val) v ^^^ 0 = x :=
    fun x => Iff.rfl
  fin_cases l
  · refine Eq.trans ?_ (congrArg some ((hb _).mpr rfl).symm)
    fin_cases k
    · show some ((0 : Byte) ^^^ v) = some (gfMul 1 v ^^^ 0)
      rw [(h1 v).1]; simp
    · show some ((0 : Byte) ^^^ gfMul (config.cx 0) v) = some (gfMul (gfMul (config.cx 0) 1) v ^^^ 0)
      rw [(h1 _).2]; simp
    · show some ((0 : Byte) ^^^ gfMul (gfSqr (config.cx 0)) v) = some (gfMul (gfMul (config.cx 0) (gfMul (config.cx 0) 1)) v ^^^ 0)
      rw [(h1 _).2]; simp [gfSqr]
  all_goals fin_cases k <;> rfl

/-! ### Witnesses: encoding and the step -/

theorem witness_DecodeEncodeWellFormed : (Instr.illegal 0xFFFFFFFF#32).WellFormed := by decide
theorem witness_OtherWordsAreIllegal_zero : decode (.cmd32 0#32) = .illegal 0#32 := by decide
theorem witness_OtherWordsAreIllegal_op4 : decode (.cmd32 4#32) = .illegal 4#32 := by decide
theorem witness_OtherWordsAreIllegal_zeroField : decode (.cmd32 0x101#32) = .illegal 0x101#32 := by decide
theorem witness_StepRunsDecodedInstruction_command :
    State.NextMove { State.reset with queue := [hostW .cmd 3#32] } (hostW .cmd 3#32) [] ∧ (decode (.cmd32 3#32)).WellFormed :=
  ⟨⟨rfl, rfl⟩, by decide⟩
theorem witness_StepRunsDecodedInstruction_rowop :
    State.engine { State.reset with engine := { Engine.rest with rowop := some 0x2A#6 } } =
      { Engine.rest with rowop := some 0x2A#6 } := rfl
theorem witness_StepRunsDecodedInstruction_move :
    State.NextMove { State.reset with queue := [hostW .argN 3#32] } (hostW .argN 3#32) [] ∧ ∀ w, hostW .argN 3#32 ≠ hostW .cmd w :=
  ⟨⟨rfl, rfl⟩, fun w h => by injection h with _ h _; exact absurd h (by decide)⟩
theorem witness_IdleBlockHoldsState : State.reset.engine.rowop = none ∧ State.reset.queue = [] := ⟨rfl, rfl⟩

/-! ### Witnesses: reset and the invariant -/

theorem witness_ResetValues : ∃ t, exec .free (ready1 false 0xAA) = .next t ∧ Reg.isArg .status = false := ⟨_, rfl, rfl⟩
theorem witness_ResetFromAnyState : State.NextMove { ready1 false 0xAA with queue := [.reset] } .reset [] := ⟨rfl, rfl⟩
theorem witness_StepKeepsMachineInvariant : (ready1 false 0xAA).Inv config ∧ ∃ t, step (ready1 false 0xAA) = .next t :=
  ⟨ready1_inv _, _, rfl⟩

/-! ### Witnesses: arithmetic -/

theorem witness_GfMulIsPolynomialProduct : (0x53#8 : Byte) ≠ 0 ∧ (0xCA#8 : Byte) ≠ 0 := by decide
theorem witness_BufferPrimitiveCorners : (3 : Nat) ≤ 4 ∧ 3 ≤ [0x55#8, 0x66#8, 0x77#8].length := by decide

/-! ### Witnesses: INIT -/

theorem init1_parametersValid (high : Bool) (v : Byte) : (init1 high v).ParametersValid := by
  rw [State.ParametersValid, init1_operandN, init1_operandBytes, init1_initS]; decide
theorem init1_originalsValid : (init1 false 0xAA).OriginalsValid := by unfold State.OriginalsValid; decide +kernel
theorem witness_InitCompletes :
    (init1 false 0xAA).ParametersValid ∧ (init1 false 0xAA).TableValid ∧ (init1 false 0xAA).operandN ≤ config.nmax ∧
      (init1 false 0xAA).initS ≤ config.smax ∧ (init1 false 0xAA).OriginalsValid :=
  ⟨init1_parametersValid _ _, ⟨by decide, by decide⟩, config_legal.nmax_pos, config_legal.smax_pos, by unfold State.OriginalsValid; decide⟩
theorem witness_ParametersByQuotient_zero : 0 < 3 ∧ 3 ≤ 1 * 3 + 0 := by decide
theorem witness_ParametersByQuotient_valid : 2 < 3 ∧ 3 ≤ 1 * 3 + 2 ∧ 3 ≤ 1 + 2 := by decide
theorem witness_ParametersByQuotient_invalid : 1 < 3 ∧ 3 ≤ 1 * 3 + 1 ∧ ¬ 3 ≤ 1 + 1 := by decide
theorem witness_ParametersByQuotient_init :
    1 ≤ (operands 3 4 0 []).operandN ∧ (operands 3 4 0 []).operandN ≤ (operands 3 4 0 []).operandBytes ∧
      ((operands 3 4 0 []).operandBytes : Int) - (((operands 3 4 0 []).operandN : Int) - 1) * ((operands 3 4 0 []).initS : Int) < 1 := by
  decide
theorem witness_InitRejectsParameters :
    ¬ (operands 0 5 0 []).ParametersValid ∧ ¬ (operands 2 1 0 []).ParametersValid ∧ ¬ (operands 3 4 0 []).ParametersValid := by
  unfold State.ParametersValid; decide
/-- P2's table at 0x2100: entry 1 is null. -/
def memNull : Memory := bytesAt 0x2100 [0x00, 0x30, 0, 0, 0, 0, 0, 0, 0, 0, 0, 0, 0, 0, 0, 0]
theorem witness_InitRejectsNullPointer_last :
    (operands 2 7 0x2100 memNull).ParametersValid ∧ 0x2100 + 8 * 2 ≤ addressTop ∧ 1 < 2 ∧
      (∀ d, d < 1 → entryReadable memNull 0x2100 d = true ∧ entryValue memNull 0x2100 d ≠ 0) ∧
      entryReadable memNull 0x2100 1 = true ∧ entryValue memNull 0x2100 1 = 0 := by
  unfold State.ParametersValid; decide
theorem witness_InitRejectsNullPointer_first :
    (operands 1 7 0x2108 memNull).ParametersValid ∧ 0x2108 + 8 * 1 ≤ addressTop ∧ 0 < 1 ∧
      entryReadable memNull 0x2108 0 = true ∧ entryValue memNull 0x2108 0 = 0 := by
  unfold State.ParametersValid; decide
theorem witness_InitCapacity_outOfMemory :
    (operands 2 (2 ^ 33) 0x2000 memP1).ParametersValid ∧ (operands 2 (2 ^ 33) 0x2000 memP1).TableValid ∧
      ¬ ((operands 2 (2 ^ 33) 0x2000 memP1).operandN ≤ config.nmax ∧ (operands 2 (2 ^ 33) 0x2000 memP1).initS ≤ config.smax) := by
  refine ⟨by unfold State.ParametersValid; decide, ⟨by decide, by decide⟩, fun h => ?_⟩
  have h1 : 2 ^ 32 ≤ config.smax := h.2
  have h2 := config_legal.smax_le
  omega
/-- One original of SMAX + 1 bytes: the first size that does not fit. -/
def overSize : State := operands 1 (config.smax + 1) 0x2000 (mem1 false 0)
theorem pairValue_ofNat {b : Nat} (h : b < 2 ^ 64) : pairValue (BitVec.ofNat 32 (b / 2 ^ 32)) (BitVec.ofNat 32 b) = b := by
  rw [pairValue, BitVec.toNat_ofNat, BitVec.toNat_ofNat]; omega
theorem overSize_operandBytes : overSize.operandBytes = config.smax + 1 :=
  pairValue_ofNat (lt_of_le_of_lt (Nat.succ_le_succ config_legal.smax_le) (by decide))
theorem overSize_initS : overSize.initS = config.smax + 1 := by
  rw [State.initS, overSize_operandBytes, show overSize.operandN = 1 from rfl, Nat.div_one]; omega
theorem witness_InitCapacity_boundary :
    overSize.ParametersValid ∧ overSize.TableValid ∧ ¬ (overSize.operandN ≤ config.nmax ∧ overSize.initS ≤ config.smax) := by
  refine ⟨?_, ⟨by decide, by decide⟩, fun h => ?_⟩
  · rw [State.ParametersValid, overSize_operandBytes, overSize_initS, show overSize.operandN = 1 from rfl]; omega
  · have := h.2; rw [overSize_initS] at this; omega
theorem witness_InitCapacity_success :
    (init1 false 0xAA).operandN ≤ config.nmax ∧ (init1 false 0xAA).initS ≤ config.smax ∧ (init1 false 0xAA).OriginalsValid :=
  ⟨config_legal.nmax_pos, config_legal.smax_pos, by unfold State.OriginalsValid; decide⟩
theorem witness_InitAllOrNothing :
    (∃ t, exec .init (init1 false 0xAA) = .next t ∧ t.result = .success) ∧
      ∃ t, exec .init State.reset = .next t ∧ t.result = .invalidInput :=
  ⟨⟨_, init1_next _ _, rfl⟩, _, rfl, rfl⟩
theorem witness_InitIsFreeThenInit : ∃ t, exec .free (ready1 false 0xAA) = .next t := ⟨_, rfl⟩
theorem witness_InitIsFreeThenInit_failing :
    (∃ t, exec .free State.reset = .next t) ∧ ∃ u, exec .init State.reset = .next u ∧ u.result ≠ .success :=
  ⟨⟨_, rfl⟩, _, rfl, by decide⟩
theorem witness_CommandsFaultOnUnreadableByte_table :
    (operands 1 1 0x2000 []).ParametersValid ∧ 0x2000 + 8 * 1 ≤ addressTop ∧ 0 < 1 ∧ 0 < 8 ∧ Memory.read [] 0x2000 = none := by
  unfold State.ParametersValid; decide
/-- A table whose last byte is missing. -/
def memShort : Memory := bytesAt 0x2000 [0x00, 0x30, 0, 0, 0, 0, 0]
theorem witness_CommandsFaultOnUnreadableByte_lastByte :
    (operands 1 1 0x2000 memShort).ParametersValid ∧ (∀ i, i < 7 → (memShort.read (0x2000 + 8 * 0 + i)).isSome = true) ∧
      memShort.read (0x2000 + 8 * 0 + 7) = none := by
  unfold State.ParametersValid; decide
/-- A table whose one original is not there. -/
def memNoData : Memory := bytesAt 0x2000 [0x00, 0x30, 0, 0, 0, 0, 0, 0]
theorem witness_CommandsFaultOnUnreadableByte_original :
    (operands 1 1 0x2000 memNoData).ParametersValid ∧ (operands 1 1 0x2000 memNoData).TableValid ∧
      (operands 1 1 0x2000 memNoData).operandN ≤ config.nmax ∧ (operands 1 1 0x2000 memNoData).initS ≤ config.smax ∧
      (operands 1 1 0x2000 memNoData).initWindow.inAddressSpace = true ∧
      (operands 1 1 0x2000 memNoData).initWindow.readable memNoData 0 = false :=
  ⟨by unfold State.ParametersValid; decide, ⟨by decide, by decide⟩, config_legal.nmax_pos, config_legal.smax_pos, by decide, by decide⟩
/-- The block after INIT, its one original unmapped since. -/
def unmapped1 : State := { ready1 false 0xAA with hmem := memNoData }
theorem unmapped1_inv : unmapped1.Inv config where
  memory := by decide
  idle h := by cases h
  buffers b h := by
    obtain rfl : bufs1 false 0xAA = b := by simpa [unmapped1, ready1_bufs] using h
    exact { ready1_buffersOk 0xAA with }
  no_symbol _ := ⟨rfl, rfl, rfl⟩
  symbol h := by cases h
  rest := ⟨rfl, rfl, rfl, rfl⟩
theorem witness_CommandsFaultOnUnreadableByte_encode :
    unmapped1.Inv config ∧ unmapped1.bufs = some (bufs1 false 0xAA) ∧ 0 < 2 * pairCount unmapped1.winN.toNat ∧
      (unmapped1.window (bufs1 false 0xAA)).readable unmapped1.hmem
        (drawnColumn config unmapped1.operandRow unmapped1.winN 0) = false := by
  refine ⟨unmapped1_inv, rfl, by decide, ?_⟩
  rw [show unmapped1.winN = 1 from rfl, drawn1]
  decide
theorem witness_InitRefusedPastAddressSpace_table :
    (operands 1 1 (2 ^ 64 - 7) []).ParametersValid ∧ addressTop < (operands 1 1 (2 ^ 64 - 7) []).operandPtrtab + 8 * 1 := by
  unfold State.ParametersValid; decide
/-- A table whose one original starts at the last address. -/
def memTop : Memory := bytesAt 0x2000 [0xFF, 0xFF, 0xFF, 0xFF, 0xFF, 0xFF, 0xFF, 0xFF]
theorem witness_InitRefusedPastAddressSpace_original :
    (operands 1 2 0x2000 memTop).ParametersValid ∧ (operands 1 2 0x2000 memTop).TableValid ∧
      (operands 1 2 0x2000 memTop).operandN ≤ t0.nmax ∧ (operands 1 2 0x2000 memTop).initS ≤ t0.smax ∧ 0 < 1 ∧
      addressTop < entryValue memTop 0x2000 0 + (operands 1 2 0x2000 memTop).initWindow.len 0 :=
  ⟨by unfold State.ParametersValid; decide, ⟨by decide, by decide⟩, by decide, by decide, by decide, by decide⟩

/-! ### Witnesses: ENCODE -/

theorem witness_EncodeCompletes :
    (ready1 false 0xAA).Inv config ∧ (ready1 false 0xAA).bufs = some (bufs1 false 0xAA) ∧
      (ready1 false 0xAA).DrawnReadable config (bufs1 false 0xAA) :=
  ⟨ready1_inv _, rfl, ready1_drawnReadable _⟩
theorem witness_EncodeNotReady : State.reset.ready = false := rfl
theorem witness_SymbolClosedForm :
    (ready1 false 0xAA).Inv config ∧ (ready1 false 0xAA).bufs = some (bufs1 false 0xAA) ∧
      (ready1 false 0xAA).DrawnReadable config (bufs1 false 0xAA) ∧
      LanesCurrent config (ready1 false 0xAA).hmem ((ready1 false 0xAA).window (bufs1 false 0xAA)) (bufs1 false 0xAA).lane :=
  ⟨ready1_inv _, rfl, ready1_drawnReadable _, ready1_lanesCurrent _⟩
theorem witness_EncodeDeterministic : (ready1 false 0xAA).Inv config ∧ ∃ t, exec .encode (ready1 false 0xAA) = .next t :=
  ⟨ready1_inv _, encode1_next _ _⟩
theorem witness_CrossInstanceAgreement :
    exec .init (init1 false 0xAA) = .next (ready1 false 0xAA) ∧ exec .init (init1 true 0xAA) = .next (ready1 true 0xAA) ∧
      (ready1 false 0xAA).ready = true ∧ (ready1 true 0xAA).ready = true ∧
      (init1 false 0xAA).operandN = (init1 true 0xAA).operandN ∧ (init1 false 0xAA).operandBytes = (init1 true 0xAA).operandBytes ∧
      (init1 false 0xAA).argRow = (init1 true 0xAA).argRow ∧
      (∀ c, c < (init1 false 0xAA).operandN → ∀ i, i < (init1 false 0xAA).initS →
        origByte (init1 false 0xAA).hmem (init1 false 0xAA).initWindow c i =
          origByte (init1 true 0xAA).hmem (init1 true 0xAA).initWindow c i) ∧
      (∃ u, exec .encode (ready1 false 0xAA) = .next u) ∧ ∃ u, exec .encode (ready1 true 0xAA) = .next u :=
  ⟨init1_next _ _, init1_next _ _, rfl, rfl, rfl, rfl, rfl, by decide, encode1_next _ _, encode1_next _ _⟩
theorem witness_EncodeLinear :
    exec .init (init1 false 0x11) = .next (ready1 false 0x11) ∧ exec .init (init1 true 0x22) = .next (ready1 true 0x22) ∧
      exec .init (init1 false 0x33) = .next (ready1 false 0x33) ∧
      (init1 false 0x11).operandBytes = (init1 false 0x33).operandBytes ∧
      (init1 true 0x22).operandBytes = (init1 false 0x33).operandBytes ∧
      (∀ c, c < (init1 false 0x33).operandN → ∀ i, i < (init1 false 0x33).initS →
        origByteD (init1 false 0x33).hmem (init1 false 0x33).initWindow c i =
          origByteD (init1 false 0x11).hmem (init1 false 0x11).initWindow c i ^^^
            origByteD (init1 true 0x22).hmem (init1 true 0x22).initWindow c i) ∧
      (∃ u, exec .encode (ready1 false 0x11) = .next u) ∧ (∃ u, exec .encode (ready1 true 0x22) = .next u) ∧
      ∃ u, exec .encode (ready1 false 0x33) = .next u :=
  ⟨init1_next _ _, init1_next _ _, init1_next _ _, rfl, rfl, by decide, encode1_next _ _, encode1_next _ _, encode1_next _ _⟩
theorem witness_ZeroPreservation :
    exec .init (init1 false 0) = .next (ready1 false 0) ∧ (ready1 false 0).ready = true ∧
      (∀ c, c < (init1 false 0).operandN → ∀ i, i < (init1 false 0).initS →
        origByte (init1 false 0).hmem (init1 false 0).initWindow c i = some 0) ∧
      ∃ u, exec .encode (ready1 false 0) = .next u :=
  ⟨init1_next _ _, rfl, by decide, encode1_next _ _⟩
/-- The memory of `init1` with one byte more, which no command reads. -/
def mem1More : Memory := mem1 false 0xAA ++ [(0x5000, 7)]
theorem witness_CommandsReadOnlyTheirRegions_init :
    exec .init (init1 false 0xAA) = .next (ready1 false 0xAA) ∧ (ready1 false 0xAA).ready = true ∧
      (∀ j, j < 8 → mem1More.read (0x2000 + j) = (mem1 false 0xAA).read (0x2000 + j)) ∧
      (∀ c, c < 1 → ∀ i, i < (init1 false 0xAA).initWindow.len c →
        mem1More.read (entryValue (mem1 false 0xAA) 0x2000 c + i) =
          (mem1 false 0xAA).read (entryValue (mem1 false 0xAA) 0x2000 c + i)) ∧
      mem1More ≠ mem1 false 0xAA :=
  ⟨init1_next _ _, rfl, by decide, by decide, by decide⟩
theorem witness_CommandsReadOnlyTheirRegions_failing :
    (∃ t, exec .init (operands 2 1 0x2000 memP1) = .next t ∧ t.ready = false) ∧ ¬ (operands 2 1 0x2000 memP1).ParametersValid ∧
      (∃ t, exec .encode State.reset = .next t) ∧ State.reset.ready = false :=
  ⟨⟨_, rfl, rfl⟩, by unfold State.ParametersValid; decide, ⟨_, rfl⟩, rfl⟩
theorem witness_CommandsReadOnlyTheirRegions_encode :
    (ready1 false 0xAA).bufs = some (bufs1 false 0xAA) ∧ (∃ u, exec .encode (ready1 false 0xAA) = .next u) ∧
      (∀ j i, j < 2 * pairCount (ready1 false 0xAA).winN.toNat →
        i < ((ready1 false 0xAA).window (bufs1 false 0xAA)).len
          (drawnColumn config (ready1 false 0xAA).operandRow (ready1 false 0xAA).winN j) →
        origByte mem1More ((ready1 false 0xAA).window (bufs1 false 0xAA))
            (drawnColumn config (ready1 false 0xAA).operandRow (ready1 false 0xAA).winN j) i =
          origByte (mem1 false 0xAA) ((ready1 false 0xAA).window (bufs1 false 0xAA))
            (drawnColumn config (ready1 false 0xAA).operandRow (ready1 false 0xAA).winN j) i) := by
  refine ⟨rfl, encode1_next _ _, fun j i _ hi => ?_⟩
  rw [show (ready1 false 0xAA).winN = 1 from rfl, drawn1] at hi ⊢
  obtain rfl : i = 0 := by have : i < 1 := hi; omega
  rfl
theorem witness_CommandsReadOnlyTheirRegions_free : ∃ t, exec .free (ready1 false 0xAA) = .next t := ⟨_, rfl⟩
theorem witness_SingleOriginalIsScaled :
    (ready1 false 0xAA).winN = 1 ∧ ((ready1 false 0xAA).window (bufs1 false 0xAA)).readable (ready1 false 0xAA).hmem 0 = true ∧
      (ready1 false 0xAA).Inv config ∧
      LanesCurrent config (ready1 false 0xAA).hmem ((ready1 false 0xAA).window (bufs1 false 0xAA)) (bufs1 false 0xAA).lane :=
  ⟨rfl, rfl, ready1_inv _, ready1_lanesCurrent _⟩

/-- The next state of an outcome that is one. -/
def nextOf (o : Host.Outcome State Fault Refusal) : State :=
  match o with
  | .next t => t
  | .fault _ => State.reset
  | .refused _ => State.reset

/-- Whether an outcome is a next state. -/
def isNext (o : Host.Outcome State Fault Refusal) : Bool :=
  match o with
  | .next _ => true
  | .fault _ => false
  | .refused _ => false

theorem eq_nextOf {o : Host.Outcome State Fault Refusal} (h : isNext o = true) : o = .next (nextOf o) := by
  cases o with
  | next t => rfl
  | fault f => cases h
  | refused r => cases h

/-- P1's INIT and ENCODE 0 under T0. -/
def initL1 : State := nextOf (initWith t0 (operands 2 7 0x2000 memP1))

/-- P1's memory with a byte in the tail of the final original (the note to P1). -/
def memP1Tail : Memory := memP1.store 0x3103 0xFF

theorem witness_FinalColumnTailIsolation :
    initWith t0 (operands 2 7 0x2000 memP1) = .next initL1 ∧ initL1.ready = true ∧
      encodeWith t0 initL1 = .next (nextOf (encodeWith t0 initL1)) ∧
      (∀ a, memP1Tail.read a ≠ memP1.read a →
        (entryValue memP1 0x2000 (2 - 1) + (operands 2 7 0x2000 memP1).initF ≤ a ∧
          a < entryValue memP1 0x2000 (2 - 1) + (operands 2 7 0x2000 memP1).initS) ∧
        ¬ (0x2000 ≤ a ∧ a < 0x2000 + 8 * 2) ∧
        ∀ c, c < 2 → ¬ (entryValue memP1 0x2000 c ≤ a ∧
          a < entryValue memP1 0x2000 c + (operands 2 7 0x2000 memP1).initWindow.len c)) ∧
      memP1Tail.read 0x3103 ≠ memP1.read 0x3103 := by
  refine ⟨eq_nextOf (by decide +kernel), by decide +kernel, eq_nextOf (by decide +kernel), fun a ha => ?_, by decide⟩
  rw [memP1Tail, Memory.read_store] at ha
  split at ha
  · next h => subst h; decide
  · exact absurd rfl ha
/-- Why an outcome stops, if it does. -/
def stopOf (o : Host.Outcome State Fault Refusal) : Option Stop :=
  match o with
  | .next _ => none
  | .fault f => some (.fault f)
  | .refused r => some (.refuse r)

theorem eq_of_stopOf {o : Host.Outcome State Fault Refusal} {e : Stop} (h : stopOf o = some e) : o = e.toOutcome := by
  cases o <;> cases h <;> rfl

theorem witness_CommandsStopOnlyOnHostMemory_fault :
    (operands 1 1 0x2000 []).Inv config ∧ exec .init (operands 1 1 0x2000 []) = .fault (.unreadable 0x2000) :=
  ⟨idle_inv (by decide) rfl ⟨rfl, rfl, rfl⟩ rfl ⟨rfl, rfl, rfl⟩ rfl,
    eq_of_stopOf (e := .fault (.unreadable 0x2000)) (by decide +kernel)⟩
theorem witness_CommandsStopOnlyOnHostMemory_refusal :
    (operands 1 1 (2 ^ 64 - 7) []).Inv config ∧ exec .init (operands 1 1 (2 ^ 64 - 7) []) = .refused .pastAddressSpace :=
  ⟨idle_inv (by decide) rfl ⟨rfl, rfl, rfl⟩ rfl ⟨rfl, rfl, rfl⟩ rfl,
    eq_of_stopOf (e := .refuse .pastAddressSpace) (by decide +kernel)⟩

/-! ### Witnesses: the accumulators -/

theorem t0_legal : t0.Legal where
  cx_ne_zero := by decide +kernel
  nmax_pos := by decide
  nmax_le := by decide
  smax_pos := by decide
  smax_le := by decide
  xaccB_pos := by decide

/-- The buffers of window L1. -/
def bufsL1 : Buffers := (readyL1 0).bufs.getD { ptr := [], lane := zeroLanes 0, sum := [], prod := [] }

theorem readyL1_buffersOk {cfg : Config} (s : State) (hN : 2 ≤ cfg.nmax) (hS : 4 ≤ cfg.smax) (hn : s.winN = 2) (hs : s.winS = 4)
    (hf : s.winF = 3) : s.BuffersOk cfg bufsL1 where
  n_pos := by rw [hn]; decide
  n_le := by rw [hn]; exact hN
  s_pos := by rw [hs]; decide
  s_le := by rw [hs]; exact hS
  f_pos := by rw [hf]; decide
  f_le := by rw [hf, hs]; decide
  ptr_length := by rw [hn]; rfl
  ptr_ne_zero := List.forall_mem_cons.mpr ⟨by decide, List.forall_mem_singleton.mpr (by decide)⟩
  regions := by unfold State.window; rw [hn, hs, hf]; decide
  cell_length := by rw [hs]; decide
  empty_lane := by rw [hn, hs]; decide
  sum_length := by rw [hs]; rfl
  prod_length := by rw [hs]; rfl

theorem readyL1_inv : (readyL1 0).Inv t0 where
  memory := by decide
  idle h := by cases h
  buffers b h := by
    obtain rfl : bufsL1 = b := by simpa [bufsL1, readyL1] using h
    exact readyL1_buffersOk _ (by decide) (by decide) rfl rfl rfl
  no_symbol _ := ⟨rfl, rfl, rfl⟩
  symbol h := by cases h
  rest := ⟨rfl, rfl, rfl, rfl⟩

theorem witness_AccumulatorsRefineSequential :
    t0.Legal ∧ (readyL1 0).Inv t0 ∧ encodeWith t0 (readyL1 0) = .next (nextOf (encodeWith t0 (readyL1 0))) ∧
      encodeBatchedWith t0 (readyL1 0) = .next (nextOf (encodeBatchedWith t0 (readyL1 0))) :=
  ⟨t0_legal, readyL1_inv, eq_nextOf (by decide +kernel), eq_nextOf (by decide +kernel)⟩
theorem witness_AccumulatorContract :
    1 ≤ 2 ∧ ({ dest := [0, 0], queue := [] } : Xacc).queue = [] ∧
      ∀ r, r ∈ [SrcRef.cell 0 0, SrcRef.cell 0 1, SrcRef.cell 0 2] →
        sourcesX1.bytes r = .ok (match r with | .cell l k => laneCell sourcesX1.lane l k | .original _ => []) ∧
        (match r with | .cell l k => laneCell sourcesX1.lane l k | .original _ => []).length = sourcesX1.window.s := by
  refine ⟨by decide, rfl, fun r hr => ?_⟩
  simp only [List.mem_cons, List.not_mem_nil, or_false] at hr
  rcases hr with rfl | rfl | rfl <;> exact ⟨rfl, rfl⟩

/-! ### Witnesses: FREE, ROWOP, the lifecycle -/

theorem reset_inv : State.reset.Inv config :=
  idle_inv (by decide) rfl ⟨rfl, rfl, rfl⟩ rfl ⟨rfl, rfl, rfl⟩ rfl
theorem witness_FreeReleases : ({ State.reset with result := .invalidInput } : State).ready = false ∧
    ({ State.reset with result := .invalidInput } : State).Inv config :=
  ⟨rfl, idle_inv (by decide) rfl ⟨rfl, rfl, rfl⟩ rfl ⟨rfl, rfl, rfl⟩ rfl⟩
theorem witness_RowopMixesLane :
    (ready1 false 0xAA).bufs = some (bufs1 false 0xAA) ∧ (ready1 false 0xAA).BuffersOk config (bufs1 false 0xAA) :=
  ⟨rfl, ready1_buffersOk _⟩
theorem witness_RowopWithoutBuffers : State.reset.bufs = none := rfl
theorem witness_MixingIsEightRowops : (readyL1 0).bufs = some bufsL1 := rfl
theorem witness_LifecycleTransitions :
    (ready1 false 0xAA).Inv config ∧ (ready1 false 0xAA).ready = true ∧ (∃ t, exec .encode (ready1 false 0xAA) = .next t) ∧
      (∃ t, exec .free (ready1 false 0xAA) = .next t) ∧ (∃ t, exec (.illegal 0#32) (ready1 false 0xAA) = .next t) ∧
      (init1 false 0xAA).Inv config ∧ (∃ t, exec .init (init1 false 0xAA) = .next t) ∧
      State.reset.Inv config ∧ State.reset.ready = false ∧ ∃ t, exec .encode State.reset = .next t :=
  ⟨ready1_inv _, rfl, encode1_next _ _, ⟨_, rfl⟩, ⟨_, rfl⟩,
    idle_inv (by decide) rfl ⟨rfl, rfl, rfl⟩ rfl ⟨rfl, rfl, rfl⟩ rfl,
    ⟨_, init1_next _ _⟩, reset_inv, rfl, _, rfl⟩
theorem witness_CommandsNeverWriteHost :
    (∃ t, exec .init (init1 false 0xAA) = .next t) ∧ (∃ t, exec .encode (ready1 false 0xAA) = .next t) ∧
      (∃ t, exec .free (ready1 false 0xAA) = .next t) ∧ (∃ t, exec (.rowop 0x2A#6) (ready1 false 0xAA) = .next t) ∧
      Reg.isArg .argRow = true :=
  ⟨⟨_, init1_next _ _⟩, encode1_next _ _, ⟨_, rfl⟩, ⟨_, rfl⟩, rfl⟩

/-! ### Witnesses: registers, aperture, host moves -/

theorem witness_ArgRegistersStoreWrites_offsets :
    State.NextMove { State.reset with queue := [.write .word 0x008 5#32] } (.write .word 0x008 5#32) [] ∧
      State.NextMove { State.reset with queue := [.write .word 0x01C 5#32] } (.write .word 0x01C 5#32) [] :=
  ⟨⟨rfl, rfl⟩, rfl, rfl⟩
theorem witness_ArgRegistersStoreWrites :
    Reg.isArg .argRow = true ∧
      State.NextMove { State.reset with queue := [hostW .argRow 0x12345678#32] } (hostW .argRow 0x12345678#32) [] :=
  ⟨rfl, rfl, rfl⟩
theorem witness_OtherWritesIgnored_readOnly :
    Reg.isArg .status = false ∧ Reg.status ≠ .cmd ∧
      State.NextMove { State.reset with queue := [hostW .status 7#32] } (hostW .status 7#32) [] :=
  ⟨rfl, by decide, rfl, rfl⟩
theorem witness_OtherWritesIgnored_reserved :
    (0x038 ≤ 0x038 ∧ 0x038 % 4 = 0 ∧ 0xFFC ≤ 0xFFC ∧ 0xFFC % 4 = 0) ∧
      State.NextMove { State.reset with queue := [.write .word 0x038 7#32] } (.write .word 0x038 7#32) [] ∧
      State.NextMove { State.reset with queue := [.read .word 0xFFC] } (.read .word 0xFFC) [] :=
  ⟨by decide, ⟨rfl, rfl⟩, rfl, rfl⟩
theorem witness_OtherWritesIgnored_aperture :
    State.NextMove { State.reset with queue := [.write .half 0x1000 7#32] } (.write .half 0x1000 7#32) [] := ⟨rfl, rfl⟩
theorem witness_OtherWritesIgnored_beyond :
    State.NextMove { State.reset with queue := [hostRB config.smax] } (hostRB config.smax) [] := ⟨rfl, rfl⟩
theorem witness_RegisterReadsReturnValue_any :
    State.NextMove { State.reset with queue := [.read .word 0x038] } (.read .word 0x038) [] ∧
      ∃ t, step { State.reset with queue := [.read .word 0x038] } = .next t := ⟨⟨rfl, rfl⟩, _, rfl⟩
theorem witness_RegisterReadsReturnValue_offsets :
    State.NextMove { ready1 false 0xAA with queue := [.read .word 0x000] } (.read .word 0x000) [] ∧
      State.NextMove { ready1 false 0xAA with queue := [.read .word 0x004] } (.read .word 0x004) [] ∧
      State.NextMove { ready1 false 0xAA with queue := [.read .word 0x034] } (.read .word 0x034) [] :=
  ⟨⟨rfl, rfl⟩, ⟨rfl, rfl⟩, rfl, rfl⟩
theorem witness_RegisterReadsReturnValue :
    State.NextMove { ready1 false 0xAA with queue := [hostR .status] } (hostR .status) [] := ⟨rfl, rfl⟩

/-- Window L1 with its symbol published. -/
def symbolL1 : State := { readyL1 0 with symValid := true, symBytes := 4, symPtr := 0x1000 }

theorem symbolL1_inv {cfg : Config} (hN : 2 ≤ cfg.nmax) (hS : 4 ≤ cfg.smax) : symbolL1.Inv cfg where
  memory := by decide
  idle h := by cases h
  buffers b h := by
    obtain rfl : bufsL1 = b := by simpa [bufsL1, symbolL1, readyL1] using h
    exact readyL1_buffersOk _ hN hS rfl rfl rfl
  no_symbol h := by cases h
  symbol _ := ⟨rfl, rfl⟩
  rest := ⟨rfl, rfl, rfl, rfl⟩

theorem witness_ApertureReads_valid :
    symbolL1.Inv t0 ∧ symbolL1.symValid = true ∧ 3 < symbolL1.symBytes.toNat ∧ symbolL1.bufs = some bufsL1 :=
  ⟨symbolL1_inv (by decide) (by decide), rfl, by decide, rfl⟩
theorem witness_ApertureReads_unspecified :
    symbolL1.symBytes.toNat ≤ 4 ∧ 4 < t0.smax ∧ (readyL1 0).Inv t0 ∧ (readyL1 0).symValid = false ∧ 0 < t0.smax ∧ 4095 < t0.smax :=
  ⟨by decide, by decide, readyL1_inv, rfl, by decide, by decide⟩
theorem witness_ApertureReads_beyond : t0.smax ≤ 4096 := by decide
theorem witness_ApertureReads_word :
    symbolL1.Inv t0 ∧ 0 % 4 = 0 ∧ symbolL1.symValid = true ∧ 0 + 3 < symbolL1.symBytes.toNat ∧ symbolL1.bufs = some bufsL1 :=
  ⟨symbolL1_inv (by decide) (by decide), rfl, rfl, by decide, rfl⟩
/-- T0 with an SMAX that no aligned word ends at. -/
def t0Odd : Config := { t0 with smax := 6 }
theorem witness_ApertureReads_straddle :
    symbolL1.Inv t0Odd ∧ 4 % 4 = 0 ∧ 4 < t0Odd.smax ∧ t0Odd.smax ≤ 4 + 2 ∧ symbolL1.symValid = true :=
  ⟨symbolL1_inv (by decide) (by decide), rfl, by decide, by decide, rfl⟩
theorem witness_UndefinedAccessesRefused_bank :
    State.NextMove { State.reset with queue := [.write .byte 0xFFF 1#32] } (.write .byte 0xFFF 1#32) [] ∧
      State.NextMove { State.reset with queue := [.read .word 0x002] } (.read .word 0x002) [] ∧ AccessSize.byte ≠ .word ∧
      0x002 % 4 ≠ 0 :=
  ⟨⟨rfl, rfl⟩, ⟨rfl, rfl⟩, by decide, by decide⟩
theorem witness_UndefinedAccessesRefused_aperture :
    State.NextMove { State.reset with queue := [.read .byte 0x1000] } (.read .byte 0x1000) [] ∧
      State.NextMove { State.reset with queue := [.read .word 0x1002] } (.read .word 0x1002) [] ∧ 0x1002 % 4 ≠ 0 :=
  ⟨⟨rfl, rfl⟩, ⟨rfl, rfl⟩, by decide⟩
theorem witness_ShorthandsRun :
    ({ State.reset with queue := programInit 2 7 0x2000 } : State).queue = programInit 2 7 0x2000 ++ [] ∧
      ({ State.reset with queue := programEncode 5 } : State).queue = programEncode 5 ++ [] ∧
      ({ State.reset with queue := programFree } : State).queue = programFree ++ [] ∧ State.reset.engine.rowop = none :=
  ⟨rfl, rfl, rfl, rfl⟩
theorem witness_HostChangesMemory :
    (mem1 false 0xAA).wf = true ∧
      State.NextMove { init1 false 0xAA with queue := [.hmemStore 0x3000 1] } (.hmemStore 0x3000 1) [] ∧
      State.NextMove { init1 false 0xAA with queue := [.hmemUnmap 0x3000] } (.hmemUnmap 0x3000) [] :=
  ⟨by decide, ⟨rfl, rfl⟩, rfl, rfl⟩

end Sys2Proof.Tests
end

/-! PROOFS. The statements about the state and its registers (10_state.md): reset, STATUS, the register bank, what a step
runs, and the machine invariant, which every step keeps. -/

namespace Sys2Proof.Machine

/-! ### Moves of the host, said once -/

/-- Each register has an offset of its own (R21). -/
theorem Reg.offset_injective {r r' : Reg} (h : r.offset = r'.offset) : r = r' := by
  have hat : some r = some r' := by rw [← regAt_offset r, ← regAt_offset r', h]
  exact Option.some.inj hat

/-- A write is a command only where it is a word write at CMD (R23). -/
theorem classify_write {size : AccessSize} {off : Nat} (v : Word) (h : ¬ (size = .word ∧ off = Reg.cmd.offset)) :
    classify (.write size off v) = .move (.write size off v) := if_neg h

/-- A write that is no command is made by `hostWrite`. -/
theorem step_write {s : State} {size : AccessSize} {off : Nat} {v : Word} {q : List HostMove}
    (h : s.NextMove (.write size off v) q) (hc : ¬ (size = .word ∧ off = Reg.cmd.offset)) :
    step s = hostWrite size off v { s with queue := q } :=
  step_move h (classify_write v hc)

/-- Every read is made by `hostRead`. -/
theorem step_read {s : State} {size : AccessSize} {off : Nat} {q : List HostMove} (h : s.NextMove (.read size off) q) :
    step s = hostRead config size off { s with queue := q } :=
  step_move h rfl

/-- A word write to the bank stores in the register at its offset, if there is one (R22, R35). -/
theorem hostWrite_bank {off : Nat} (v : Word) (s : State) (ha : off % 4 = 0) (hb : off < apertureBase) :
    hostWrite .word off v s = .next ((regAt off).elim s (s.writeReg v)) := by
  unfold hostWrite
  rw [if_neg (by omega), if_pos ⟨rfl, ha⟩]

/-- A write at 0x1000 or above is ignored, whatever its size (R35, log 13). -/
theorem hostWrite_aperture {size : AccessSize} {off : Nat} (v : Word) (s : State) (h : apertureBase ≤ off) :
    hostWrite size off v s = .next s := if_pos h

/-- A write to the bank that is no aligned word is refused (R36). -/
theorem hostWrite_undefined {size : AccessSize} {off : Nat} (v : Word) (s : State) (hb : off < apertureBase)
    (h : ¬ (size = .word ∧ off % 4 = 0)) : hostWrite size off v s = .refused (.undefinedAccess size off) := by
  unfold hostWrite
  rw [if_neg (by omega), if_neg h]

/-- A word read of the bank returns the register at its offset, or 0 (R242, R35). -/
theorem hostRead_bank (cfg : Config) {off : Nat} (s : State) (ha : off % 4 = 0) (hb : off < apertureBase) :
    hostRead cfg .word off s = .next (s.obtain ((regAt off).elim 0 s.readReg)) := by
  unfold hostRead
  simp only [ha, hb, ne_eq, not_true_eq_false, if_false, if_true]

/-- A byte read of the aperture answers the byte (R70). -/
theorem hostRead_apertureByte (cfg : Config) (i : Nat) (s : State) :
    hostRead cfg .byte (apertureBase + i) s =
      .next ((readAperture cfg s i).2.obtain ((readAperture cfg s i).1.setWidth 32)) := by
  unfold hostRead
  simp only
  rw [if_neg (by omega), Nat.add_sub_cancel_left]

/-- An aligned word read of the aperture answers four bytes (R70). -/
theorem hostRead_apertureWord (cfg : Config) {i : Nat} (s : State) (ha : i % 4 = 0) :
    hostRead cfg .word (apertureBase + i) s =
      .next ((readAperture32 cfg s i).2.obtain (readAperture32 cfg s i).1) := by
  have hal : (apertureBase + i) % 4 = 0 := by unfold apertureBase; omega
  unfold hostRead
  simp only [hal, ne_eq, not_true_eq_false, if_false]
  rw [if_neg (by omega), Nat.add_sub_cancel_left]

/-- The aperture holds 0 at and beyond SMAX (R35). -/
theorem apertureByte_beyond {cfg : Config} {i : Nat} (s : State) (h : cfg.smax ≤ i) : apertureByte cfg s i = some 0 := if_pos h

/-- An aligned word read at or beyond SMAX returns 0 and changes nothing of the block (R35). -/
theorem hostRead_apertureWord_beyond {cfg : Config} {i : Nat} (s : State) (h : cfg.smax ≤ i) (ha : i % 4 = 0) :
    hostRead cfg .word (apertureBase + i) s = .next { s with readData := 0 } := by
  have hbyte (j : Nat) (hj : i ≤ j) : readAperture cfg s j = (0, s) :=
    readAperture_of_some (apertureByte_beyond s (h.trans hj))
  have hword : readAperture32 cfg s i = (0, s) := by
    unfold readAperture32
    simp only [hbyte, le_refl, Nat.le_add_right]
    rfl
  rw [hostRead_apertureWord cfg s ha, hword]
  rfl

/-- The reads the block defines: aligned words anywhere, bytes at 0x1000 and above (R36, log 13). -/
def ReadDefined (size : AccessSize) (off : Nat) : Prop :=
  (size = .word ∧ off % 4 = 0) ∨ (size = .byte ∧ apertureBase ≤ off)

/-- A defined read answers, and changes nothing but the value obtained and the counter of free values; every other read is
refused (R36, R70, U12). -/
theorem hostRead_cases (cfg : Config) (size : AccessSize) (off : Nat) (s : State) :
    (ReadDefined size off ∧ ∃ v k, hostRead cfg size off s = .next { s with readData := v, freeIx := k }) ∨
      (¬ ReadDefined size off ∧ hostRead cfg size off s = .refused (.undefinedAccess size off)) := by
  cases size with
  | word =>
    by_cases ha : off % 4 = 0
    · refine .inl ⟨.inl ⟨rfl, ha⟩, ?_⟩
      by_cases hb : off < apertureBase
      · exact ⟨_, _, hostRead_bank cfg s ha hb⟩
      · obtain ⟨i, rfl⟩ := Nat.exists_eq_add_of_le (Nat.le_of_not_lt hb)
        have hi : i % 4 = 0 := by unfold apertureBase at ha; omega
        obtain ⟨k, b0, b1, b2, b3, hr, -⟩ := readAperture32_eq cfg s i
        exact ⟨_, k, by rw [hostRead_apertureWord cfg s hi, hr]; rfl⟩
    · refine .inr ⟨by simp [ReadDefined, ha], ?_⟩
      unfold hostRead
      simp only [ha, ne_eq, not_false_eq_true, if_true]
  | byte =>
    by_cases hb : apertureBase ≤ off
    · obtain ⟨i, rfl⟩ := Nat.exists_eq_add_of_le hb
      obtain ⟨k, hk⟩ := readAperture_frame cfg s i
      exact .inl ⟨.inr ⟨rfl, hb⟩, _, k, by rw [hostRead_apertureByte, hk]; rfl⟩
    · exact .inr ⟨by simp [ReadDefined, hb], if_pos (by omega)⟩
  | half => exact .inr ⟨by simp [ReadDefined], rfl⟩
  | double => exact .inr ⟨by simp [ReadDefined], rfl⟩

/-- A word write to a register other than CMD stores in that register. -/
theorem step_writeReg {s : State} {r : Reg} {v : Word} {q : List HostMove} (hr : r ≠ .cmd) (h : s.NextMove (hostW r v) q) :
    step s = .next (State.writeReg { s with queue := q } v r) := by
  obtain ⟨ha, hb⟩ := r.offset_aligned
  rw [step_write h fun hc => hr (Reg.offset_injective hc.2), hostWrite_bank v _ ha hb, regAt_offset]
  rfl

/-- A register that is not an ARG register stores nothing (R23, R35). -/
theorem State.writeReg_of_not_arg {r : Reg} (s : State) (v : Word) (hr : r.isArg = false) : s.writeReg v r = s := by
  cases r with
  | cmd | status | winN | winS | winF | symRow | symBytes | symPtr => rfl
  | argN | argRow | argBytesLo | argBytesHi | argPtrtabLo | argPtrtabHi => cases hr

/-- A write to an ARG register is what a read of it returns, and every other register reads as before (R22). -/
theorem State.readReg_writeReg (s : State) (v : Word) {r : Reg} (hr : r.isArg = true) (r' : Reg) :
    (s.writeReg v r).readReg r' = if r' = r then v else s.readReg r' := by
  cases r with
  | argN | argRow | argBytesLo | argBytesHi | argPtrtabLo | argPtrtabHi => cases r' <;> rfl
  | cmd | status | winN | winS | winF | symRow | symBytes | symPtr => cases hr

/-- A write to a register writes no other state. -/
theorem State.writeReg_frame (s : State) (v : Word) (r : Reg) :
    (s.writeReg v r).result = s.result ∧ (s.writeReg v r).symValid = s.symValid ∧ (s.writeReg v r).bufs = s.bufs ∧
      (s.writeReg v r).engine = s.engine ∧ (s.writeReg v r).hmem = s.hmem ∧ (s.writeReg v r).queue = s.queue ∧
      (s.writeReg v r).readData = s.readData ∧ (s.writeReg v r).freeIx = s.freeIx := by
  cases r <;> exact ⟨rfl, rfl, rfl, rfl, rfl, rfl, rfl, rfl⟩

/-- Every register reads 0 after reset (R34). -/
theorem State.reset_readReg (r : Reg) : State.reset.readReg r = 0 := by cases r <;> decide

/-! ### STATUS -/

/-- RESULT stands in bits 1:0 of STATUS (R24). -/
theorem State.status_result (s : State) : s.status.extractLsb' 0 2 = s.result.code :=
  BitVec.extractLsb'_append_eq_right

/-- READY stands in bit 2 of STATUS, and SYMVALID in bit 3 (R24). -/
theorem State.status_flags (s : State) : s.status.getLsbD 2 = s.ready ∧ s.status.getLsbD 3 = s.symValid := by
  have hbits : ∀ (v r : Bool) (c : BitVec 2),
      ((0 : BitVec 28) ++ BitVec.ofBool v ++ BitVec.ofBool r ++ c).getLsbD 2 = r ∧
        ((0 : BitVec 28) ++ BitVec.ofBool v ++ BitVec.ofBool r ++ c).getLsbD 3 = v := by decide
  exact hbits s.symValid s.ready s.result.code

theorem State.status_lt (s : State) : s.status.toNat < 16 := by
  have hcode : s.result.code.toNat < 4 := s.result.code.isLt
  have hready := s.ready.toNat_le
  have hvalid := s.symValid.toNat_le
  rw [State.status_toNat]
  omega

/-- Bits 31:4 of STATUS are 0 (R24). -/
theorem State.status_reserved (s : State) : s.status.extractLsb' 4 28 = 0 := by
  apply BitVec.eq_of_toNat_eq
  rw [BitVec.extractLsb'_toNat, Nat.shiftRight_eq_div_pow, Nat.div_eq_of_lt s.status_lt]
  rfl

/-- The codes of R95: each result has its own, and 3 is none. -/
theorem Result.code_iff (r : Result) :
    r.code ≠ 3 ∧ (r.code = 0 ↔ r = .success) ∧ (r.code = 1 ↔ r = .invalidInput) ∧ (r.code = 2 ↔ r = .outOfMemory) := by
  cases r <;> decide

/-! ### Placed items -/

/-- A placed CMD32 word is the host's next move, a write to CMD (log 2). -/
theorem State.withFetchWord_cmd32 (s : State) (w : Word) :
    s.withFetchWord 32 w.toNat =
      { s with queue := hostW .cmd w :: s.queue, engine := { s.engine with rowop := none } } := by
  have hitem : itemOfTable 32 w.toNat = some (.cmd32 w) := by
    simp [itemOfTable]
  rw [State.withFetchWord, hitem]
  rfl

/-- A placed ROWOP6 value stands in the slot (log 4). -/
theorem State.withFetchWord_rowop6 (s : State) (op : BitVec 6) :
    s.withFetchWord 8 op.toNat = { s with engine := { s.engine with rowop := some op } } := by
  have hitem : itemOfTable 8 op.toNat = some (.rowop6 op) := by
    simp [itemOfTable, rowopBits]
  rw [State.withFetchWord, hitem]
  rfl

/-! ### What every command leaves to the host -/

/-- `t` with what no command writes taken from `s`: the ARG registers (R22), host memory (R62), the host's moves and the value it
read last. -/
def State.withHostOf (t s : State) : State :=
  { t with
    argN := s.argN
    argRow := s.argRow
    argBytesLo := s.argBytesLo
    argBytesHi := s.argBytesHi
    argPtrtabLo := s.argPtrtabLo
    argPtrtabHi := s.argPtrtabHi
    hmem := s.hmem
    queue := s.queue
    readData := s.readData }

theorem State.withHostOf_readReg (t s : State) {r : Reg} (hr : r.isArg = true) : (t.withHostOf s).readReg r = s.readReg r := by
  cases r with
  | argN | argRow | argBytesLo | argBytesHi | argPtrtabLo | argPtrtabHi => rfl
  | cmd | status | winN | winS | winF | symRow | symBytes | symPtr => cases hr

/-- An instruction that answers writes nothing of the host's. -/
theorem exec_withHostOf {i : Instr} {s t : State} (h : exec i s = .next t) : t.withHostOf s = t := by
  cases i with
  | init => obtain rfl | rfl | ⟨S, F, ptr, lane, -, -, -, -, rfl⟩ := initWith_next h <;> rfl
  | encode => obtain ⟨-, rfl⟩ | ⟨b, o, -, -, rfl⟩ := encodeWith_next h <;> rfl
  | free => cases h; rfl
  | illegal w => cases h; rfl
  | rowop op => cases h; rfl

/-! ### The machine invariant: what it depends on -/

/-- The part of the state that the invariant speaks of besides host memory, everything else at its reset value. -/
def State.block (s : State) : State :=
  { State.reset with
    symValid := s.symValid
    winN := s.winN
    winS := s.winS
    winF := s.winF
    symRow := s.symRow
    symBytes := s.symBytes
    symPtr := s.symPtr
    bufs := s.bufs
    engine := { s.engine with rowop := none } }

theorem State.buffersOk_block_iff (cfg : Config) (s : State) (b : Buffers) :
    s.block.BuffersOk cfg b ↔ s.BuffersOk cfg b := by
  constructor <;> exact fun h => { h with }

/-- The invariant is a fact about host memory and one about `State.block`. -/
theorem State.inv_iff_block (cfg : Config) (s : State) : s.Inv cfg ↔ s.hmem.wf = true ∧ s.block.Inv cfg := by
  constructor
  · intro h
    exact ⟨h.memory, { h with
      memory := Memory.wf_nil
      buffers := fun b hb => (s.buffersOk_block_iff cfg b).mpr (h.buffers b hb) }⟩
  · rintro ⟨hm, h⟩
    exact { h with
      memory := hm
      buffers := fun b hb => (s.buffersOk_block_iff cfg b).mp (h.buffers b hb) }

/-- What leaves the block alone and host memory canonical keeps the invariant. -/
theorem State.Inv.of_block_eq {cfg : Config} {s t : State} (h : s.Inv cfg) (hb : t.block = s.block) (hm : t.hmem.wf = true) :
    t.Inv cfg :=
  (t.inv_iff_block cfg).mpr ⟨hm, hb ▸ ((s.inv_iff_block cfg).mp h).2⟩

/-- A released block whose engine is at rest meets the invariant (R30). -/
theorem State.release_inv {s : State} (cfg : Config) (hm : s.hmem.wf = true)
    (he : s.engine.prng = none ∧ s.engine.lane = 0 ∧ s.engine.xs = [] ∧ s.engine.xp = []) : s.release.Inv cfg where
  memory := hm
  idle _ := ⟨rfl, rfl, rfl, rfl⟩
  buffers _ hb := nomatch hb
  no_symbol _ := ⟨rfl, rfl, rfl⟩
  symbol hv := nomatch hv
  rest := he

theorem State.reset_inv (cfg : Config) : State.reset.Inv cfg :=
  State.release_inv (s := State.reset) cfg Memory.wf_nil ⟨rfl, rfl, rfl, rfl⟩

theorem State.Inv.failed {cfg : Config} {s : State} (h : s.Inv cfg) (r : Result) : (s.failed r).Inv cfg :=
  (State.release_inv cfg h.memory h.rest).of_block_eq rfl h.memory

theorem State.Inv.setResult {cfg : Config} {s : State} (h : s.Inv cfg) (r : Result) : (s.setResult r).Inv cfg :=
  h.of_block_eq rfl h.memory

/-! ### INIT keeps the invariant -/

/-- Phase 1 answers a Window with 1 <= F <= S (R25, R182). -/
theorem setParameters_bounds {N T S F : Nat} (h : setParameters N T = some (S, F)) : 1 ≤ N ∧ 1 ≤ F ∧ F ≤ S := by
  obtain ⟨hN, -, hS, hlt, hF⟩ := (setParameters_eq_some_iff N T S F).mp h
  have hT : T ≤ N * S := by
    have hdiv : T + N - 1 < N * S + N := by
      have := Nat.lt_mul_div_succ (T + N - 1) hN
      rwa [← hS, Nat.mul_add, Nat.mul_one] at this
    omega
  have hsplit : N * S = (N - 1) * S + S := by
    rw [← Nat.succ_mul, Nat.succ_eq_add_one, Nat.sub_add_cancel hN]
  omega

/-- The scan answers one pointer per entry, none of them null (R184, R26). -/
theorem scanPointers_ok {m : Memory} {tab c n : Nat} {ptr : List Addr} (h : scanPointers m tab c n = .ok (some ptr)) :
    ptr.length = n ∧ ∀ p ∈ ptr, p ≠ 0 := by
  induction n generalizing c ptr with
  | zero =>
    obtain rfl : [] = ptr := by simpa [scanPointers] using h
    exact ⟨rfl, fun p hp => nomatch hp⟩
  | succ n ih =>
    rw [scanPointers] at h
    split at h
    · cases h
    · next p _ =>
      split at h
      · cases h
      · next hp =>
        cases hs : scanPointers m tab (c + 1) n with
        | error e => rw [hs] at h; cases h
        | ok o =>
          rw [hs] at h
          cases o with
          | none => cases h
          | some ps =>
            cases h
            obtain ⟨hl, hz⟩ := ih hs
            exact ⟨congrArg (· + 1) hl, List.forall_mem_cons.mpr ⟨hp, hz⟩⟩

theorem setEncoderInput_ok {m : Memory} {tab N : Nat} {ptr : List Addr} (h : setEncoderInput m tab N = .ok (some ptr)) :
    ptr.length = N ∧ ∀ p ∈ ptr, p ≠ 0 := by
  unfold setEncoderInput at h
  split at h
  · exact scanPointers_ok h
  · cases h

@[simp] theorem laneCell_zeroLanes (S : Nat) (l : Fin 8) (k : Fin 3) : laneCell (zeroLanes S) l k = zeroBuf S := by
  simp [laneCell, zeroLanes, Vector.get_eq_getElem]

/-- Phase 5 leaves S bytes in every cell, and zeros in the lanes that no column has come to (R27, R188). -/
theorem addColumns_ok {cfg : Config} {m : Memory} {w : Window} {n : Nat} {t : LaneTable} (h : addColumns cfg m w n = .ok t) :
    (∀ l k, (laneCell t l k).length = w.s) ∧ ∀ (l : Fin 8) (k : Fin 3), n ≤ l.val → laneCell t l k = zeroBuf w.s := by
  induction n generalizing t with
  | zero =>
    cases h
    exact ⟨fun l k => by rw [laneCell_zeroLanes, zeroBuf_length], fun l k _ => laneCell_zeroLanes ..⟩
  | succ n ih =>
    rw [addColumns] at h
    split at h
    · cases h
    · next u hu =>
      obtain ⟨hlen, hzero⟩ := ih hu
      cases hr : readOriginal m w n with
      | error e => rw [hr] at h; cases h
      | ok src =>
        rw [hr] at h
        cases h
        refine ⟨fun l k => ?_, fun l k hl => ?_⟩
        · rw [addColumn_cell]
          split
          · rw [bufMuladd_length, hlen]
          · exact hlen l k
        · have hlane : l ≠ laneOf n := by
            rintro rfl
            exact absurd hl (Nat.not_le.mpr (Nat.lt_succ_of_le (Nat.mod_le n 8)))
          rw [addColumn_cell, if_neg hlane, hzero l k (by omega)]

theorem buildLaneSums_ok {cfg : Config} {m : Memory} {w : Window} {t : LaneTable} (h : buildLaneSums cfg m w = .ok t) :
    w.inAddressSpace = true ∧ addColumns cfg m w w.n = .ok t := by
  unfold buildLaneSums at h
  split at h
  · next ha => exact ⟨ha, h⟩
  · cases h

@[simp] theorem freeBytes_length (k n : Nat) : (freeBytes k n).length = n := by simp [freeBytes]

/-- The Window that the registers hold after a commit is the one committed, where its numbers fit the registers (R190). -/
theorem State.window_commit {s : State} {w : Window} {t : LaneTable} {b : Buffers} (hn : w.n < 2 ^ 32) (hs : w.s < 2 ^ 32)
    (hf : w.f < 2 ^ 32) (hb : (s.commit w t).bufs = some b) : (s.commit w t).window b = w := by
  cases hb
  simp only [State.window, State.commit_winN, State.commit_winS, State.commit_winF, BitVec.toNat_ofNat,
    Nat.mod_eq_of_lt hn, Nat.mod_eq_of_lt hs, Nat.mod_eq_of_lt hf]

/-- What a Window must be for `commit` to build the buffers of R25 to R28. -/
structure Window.Committable (cfg : Config) (w : Window) : Prop where
  n_pos : 1 ≤ w.n
  n_le : w.n ≤ cfg.nmax
  s_le : w.s ≤ cfg.smax
  f_pos : 1 ≤ w.f
  f_le : w.f ≤ w.s
  ptr_length : w.ptr.length = w.n
  ptr_ne_zero : ∀ p ∈ w.ptr, p ≠ 0

/-- The commit of a Window with its lane sums builds the buffers of R25 to R28. -/
theorem State.commit_buffersOk {cfg : Config} (hcfg : cfg.Legal) {s : State} {w : Window} {t : LaneTable} {b : Buffers}
    {m : Memory} (hw : w.Committable cfg) (ht : buildLaneSums cfg m w = .ok t) (hb : (s.commit w t).bufs = some b) :
    (s.commit w t).BuffersOk cfg b := by
  obtain ⟨hspace, hcols⟩ := buildLaneSums_ok ht
  obtain ⟨hcell, hzero⟩ := addColumns_ok hcols
  have hnmax := hcfg.nmax_le
  have hsmax := hcfg.smax_le
  obtain ⟨hn1, hn, hs, hf1, hf, hlen, hnz⟩ := hw
  have hs1 : 1 ≤ w.s := hf1.trans hf
  have hwin : (s.commit w t).window b = w := State.window_commit (by omega) (by omega) (by omega) hb
  have hN : (s.commit w t).winN.toNat = w.n := congrArg Window.n hwin
  have hS : (s.commit w t).winS.toNat = w.s := congrArg Window.s hwin
  have hF : (s.commit w t).winF.toNat = w.f := congrArg Window.f hwin
  cases hb
  exact
    { n_pos := hn1.trans_eq hN.symm
      n_le := hN.trans_le hn
      s_pos := hs1.trans_eq hS.symm
      s_le := hS.trans_le hs
      f_pos := hf1.trans_eq hF.symm
      f_le := hF.trans_le (hf.trans_eq hS.symm)
      ptr_length := hlen.trans hN.symm
      ptr_ne_zero := hnz
      regions := hwin.symm ▸ hspace
      cell_length := fun l k => (hcell l k).trans hS.symm
      empty_lane := fun l k hl => (hzero l k (hN.symm.trans_le hl)).trans (congrArg zeroBuf hS.symm)
      sum_length := (freeBytes_length ..).trans hS.symm
      prod_length := (freeBytes_length ..).trans hS.symm }

/-- INIT keeps the invariant, on a block of any configuration that R6 allows. -/
theorem initWith_inv {cfg : Config} (hcfg : cfg.Legal) {s t : State} (hi : s.Inv cfg) (h : initWith cfg s = .next t) :
    t.Inv cfg := by
  obtain rfl | rfl | ⟨S, F, ptr, lane, hp, he, hfit, hl, rfl⟩ := initWith_next h
  · exact hi.failed _
  · exact hi.failed _
  · obtain ⟨hN, hF, hFS⟩ := setParameters_bounds hp
    obtain ⟨hlen, hnz⟩ := setEncoderInput_ok he
    obtain ⟨hn, hs⟩ : s.operandN ≤ cfg.nmax ∧ S ≤ cfg.smax := by simpa [fits] using hfit
    exact
      { memory := hi.memory
        idle := fun hb => nomatch hb
        buffers := fun b hb => State.commit_buffersOk hcfg ⟨hN, hn, hs, hF, hFS, hlen, hnz⟩ hl hb
        no_symbol := fun _ => ⟨rfl, rfl, rfl⟩
        symbol := fun hv => nomatch hv
        rest := hi.rest }

/-! ### ENCODE and ROWOP keep the invariant -/

/-- Buffers stay as R25 to R28 say when SUM and PROD get other contents of the same length. -/
theorem State.BuffersOk.withSymbol {cfg : Config} {s : State} {b : Buffers} (h : s.BuffersOk cfg b) {sum prod : Buf}
    (hs : sum.length = s.winS.toNat) (hp : prod.length = s.winS.toNat) :
    s.BuffersOk cfg { b with sum := sum, prod := prod } :=
  { h with sum_length := hs, prod_length := hp }

/-- The overlay of a Window with at least one original leaves S bytes in SUM and in PROD (R213). -/
theorem overlay_length {cfg : Config} {m : Memory} {w : Window} {o p : Overlay} (hn : 1 ≤ w.n) (hf : w.f ≤ w.s)
    (h0 : o.prng.drawn = 0) (h : overlay cfg m w o = .ok p) : p.sum.length = w.s ∧ p.prod.length = w.s := by
  have hpairs : pairCount w.n = pairCount w.n - 1 + 1 := by unfold pairCount pairAddRate; omega
  unfold overlay at h
  split at h
  · rw [hpairs] at h
    obtain ⟨hs, hp, -⟩ := overlayPairs_getElem? hf h0 h
    exact ⟨hs, hp⟩
  · cases h

/-- ENCODE keeps the invariant, on a block of any configuration. -/
theorem encodeWith_inv {cfg : Config} {s t : State} (hi : s.Inv cfg) (h : encodeWith cfg s = .next t) : t.Inv cfg := by
  obtain ⟨-, rfl⟩ | ⟨b, o, hb, ho, rfl⟩ := encodeWith_next h
  · exact hi.setResult _
  · have hok := hi.buffers b hb
    obtain ⟨hsum, hprod⟩ := overlay_length (w := s.window b) hok.n_pos hok.f_le rfl ho
    obtain ⟨hmix1, hmix2⟩ := mix_length cfg s.argRow b.lane s.winS.toNat (o.sum, o.prod)
    have hblend := blend_length cfg s.argRow s.winS.toNat (mix cfg s.argRow b.lane s.winS.toNat (o.sum, o.prod))
    have hnew := hok.withSymbol ((hblend.trans hmix1).trans hsum) (hmix2.trans hprod)
    exact
      { memory := hi.memory
        idle := fun hb => nomatch hb
        buffers := fun c hc => by cases hc; exact { hnew with }
        no_symbol := fun hv => nomatch hv
        symbol := fun _ => ⟨rfl, rfl⟩
        rest := ⟨rfl, rfl, hi.rest.2.2⟩ }

/-- A row opcode on a block without buffers changes nothing (log 5). -/
theorem execRowop_of_none {s : State} (op : BitVec 6) (hb : s.bufs = none) : execRowop op s = .next s := by
  unfold execRowop
  rw [hb, Option.map_none, ← hb]

/-- A row opcode on a READY block writes SUM and PROD (R97). -/
theorem execRowop_of_some {s : State} {b : Buffers} (op : BitVec 6) (hb : s.bufs = some b) :
    execRowop op s = .next
      { s with
        bufs := some
          { b with
            sum := addSelected (b.lane.get s.engine.lane) op 0 s.winS.toNat b.sum
            prod := addSelected (b.lane.get s.engine.lane) op 3 s.winS.toNat b.prod } } := by
  unfold execRowop
  rw [hb]
  rfl

/-- A row opcode keeps the invariant. -/
theorem execRowop_inv {cfg : Config} {op : BitVec 6} {s t : State} (hi : s.Inv cfg) (h : execRowop op s = .next t) :
    t.Inv cfg := by
  cases hb : s.bufs with
  | none =>
    cases (execRowop_of_none op hb).symm.trans h
    exact hi
  | some b =>
    cases (execRowop_of_some op hb).symm.trans h
    have hok := hi.buffers b hb
    have hnew := hok.withSymbol
      ((addSelected_length (b.lane.get s.engine.lane) op 0 s.winS.toNat b.sum).trans hok.sum_length)
      ((addSelected_length (b.lane.get s.engine.lane) op 3 s.winS.toNat b.prod).trans hok.prod_length)
    exact
      { hi with
        idle := fun hb => nomatch hb
        buffers := fun c hc => by cases hc; exact { hnew with } }

/-- Every instruction keeps the invariant. -/
theorem exec_inv {i : Instr} {s t : State} (hi : s.Inv config) (h : exec i s = .next t) : t.Inv config := by
  cases i with
  | init => exact initWith_inv config_legal hi h
  | encode => exact encodeWith_inv hi h
  | free => cases h; exact hi.failed _
  | illegal w => cases h; exact hi.setResult _
  | rowop op => exact execRowop_inv hi h

/-! ### The moves of the host keep the invariant -/

theorem State.writeReg_block (s : State) (v : Word) (r : Reg) :
    (s.writeReg v r).block = s.block ∧ (s.writeReg v r).hmem = s.hmem := by
  cases r <;> exact ⟨rfl, rfl⟩

theorem hostWrite_inv {cfg : Config} {size : AccessSize} {off : Nat} {v : Word} {s t : State} (hi : s.Inv cfg)
    (h : hostWrite size off v s = .next t) : t.Inv cfg := by
  unfold hostWrite at h
  split at h
  · cases h; exact hi
  · split at h
    · cases h
      cases regAt off with
      | none => exact hi
      | some r =>
        obtain ⟨hb, hm⟩ := s.writeReg_block v r
        exact hi.of_block_eq hb (hm ▸ hi.memory)
    · cases h

theorem hostRead_inv {cfg : Config} {size : AccessSize} {off : Nat} {s t : State} (hi : s.Inv cfg)
    (h : hostRead cfg size off s = .next t) : t.Inv cfg := by
  obtain ⟨-, v, k, hr⟩ | ⟨-, hr⟩ := hostRead_cases cfg size off s
  · cases hr.symm.trans h
    exact hi.of_block_eq rfl hi.memory
  · cases hr.symm.trans h

/-- Every move of the host that is no command keeps the invariant. -/
theorem hostMove_inv {cfg : Config} {m : HostMove} {s t : State} (hi : s.Inv cfg) (h : hostMove cfg m s = .next t) :
    t.Inv cfg := by
  cases m with
  | write size off v => exact hostWrite_inv hi h
  | read size off => exact hostRead_inv hi h
  | hmemStore a b => cases h; exact hi.of_block_eq rfl (Memory.wf_store b a.isLt hi.memory)
  | hmemUnmap a => cases h; exact hi.of_block_eq rfl (Memory.wf_unmap _ hi.memory)
  | reset => cases h; exact (State.reset_inv cfg).of_block_eq rfl hi.memory

/-- Settles O11: each of the four things a step can be keeps the invariant. -/
theorem stepKeepsMachineInvariant : Obligations.StepKeepsMachineInvariant := by
  intro s t hi h
  obtain ⟨-, -, hs⟩ | ⟨op, -, hs⟩ | ⟨w, q, -, hs⟩ | ⟨m, q, -, -, hs⟩ := step_cases s
  · cases hs.symm.trans h
    exact hi
  · refine exec_inv ?_ (hs.symm.trans h)
    exact hi.of_block_eq rfl hi.memory
  · refine exec_inv ?_ (hs.symm.trans h)
    exact hi.of_block_eq rfl hi.memory
  · refine hostMove_inv ?_ (hs.symm.trans h)
    exact hi.of_block_eq rfl hi.memory

/-- Settles O10: the base case of O11. -/
theorem resetMeetsMachineInvariant : Obligations.ResetMeetsMachineInvariant := State.reset_inv config

/-! ### The register bank and the aperture -/

/-- Settles O43: a write to an ARG register is the store of `State.writeReg`, and no instruction writes what is the host's. -/
theorem argRegistersStoreWrites : Obligations.ArgRegistersStoreWrites := by
  refine ⟨fun s v q => ⟨?_, ?_, ?_, ?_, ?_, ?_⟩, ?_, ?_, ?_, fun s => ⟨rfl, rfl, rfl, rfl⟩⟩
  · exact step_writeReg (r := .argN) (by decide)
  · exact step_writeReg (r := .argRow) (by decide)
  · exact step_writeReg (r := .argBytesLo) (by decide)
  · exact step_writeReg (r := .argBytesHi) (by decide)
  · exact step_writeReg (r := .argPtrtabLo) (by decide)
  · exact step_writeReg (r := .argPtrtabHi) (by decide)
  · intro s r v q hr h
    have hcmd : r ≠ .cmd := by rintro rfl; cases hr
    have hread := State.readReg_writeReg { s with queue := q } v hr
    exact ⟨_, step_writeReg hcmd h, (hread r).trans (if_pos rfl), fun r' hne => (hread r').trans (if_neg hne),
      State.writeReg_frame _ v r⟩
  · intro r _
    exact State.reset_readReg r
  · intro i s t r hr h
    rw [← exec_withHostOf h, State.withHostOf_readReg t s hr]

/-- Settles O44: offsets without an ARG register store nothing, and what lies at 0x038 to 0xFFC or beyond SMAX reads 0. -/
theorem otherWritesIgnored : Obligations.OtherWritesIgnored := by
  refine ⟨?_, ?_, ?_, ?_, State.status_reserved⟩
  · intro s r v q hr hcmd h
    rw [step_writeReg hcmd h, State.writeReg_of_not_arg _ v hr]
  · intro s off v q hlo hhi ha
    have hbank : off < apertureBase := Nat.lt_succ_of_le (hhi.trans (by decide))
    have hcmd : off ≠ Reg.cmd.offset := by rintro rfl; exact absurd hlo (by decide)
    refine ⟨fun h => ?_, fun h => ?_⟩
    · rw [step_write h fun hc => hcmd hc.2, hostWrite_bank v _ ha hbank, regAt_of_reserved hlo]
      rfl
    · rw [step_read h, hostRead_bank config _ ha hbank, regAt_of_reserved hlo]
      rfl
  · intro s size off v q hoff h
    have hcmd : off ≠ Reg.cmd.offset := by rintro rfl; exact absurd hoff (by decide)
    rw [step_write h fun hc => hcmd hc.2, hostWrite_aperture v _ hoff]
  · intro s i q hi
    refine ⟨fun h => ?_, fun ha h => ?_⟩
    · rw [step_read h, hostRead_apertureByte, readAperture_of_some (apertureByte_beyond _ hi)]
      rfl
    · rw [step_read h]
      exact hostRead_apertureWord_beyond { s with queue := q } hi ha

/-- Settles O48: a write to the bank that is no aligned word is refused by `hostWrite`, and `hostRead_cases` splits the reads. -/
theorem undefinedAccessesRefused : Obligations.UndefinedAccessesRefused := by
  intro s size off v q
  refine ⟨fun hbank hbad => ?_, fun hoff h => ?_⟩
  · have hword : ¬ (size = .word ∧ off % 4 = 0) := fun ⟨hs, ha⟩ => hbad.elim (· hs) (· ha)
    refine ⟨fun h => ?_, fun h => ?_⟩
    · rw [step_write h fun hc => hword ⟨hc.1, hc.2 ▸ Reg.cmd.offset_aligned.1⟩, hostWrite_undefined v _ hbank hword]
    · rw [step_read h]
      obtain ⟨hd, -⟩ | ⟨-, hr⟩ := hostRead_cases config size off { s with queue := q }
      · exact absurd hd (not_or.mpr ⟨hword, fun hb => absurd hb.2 (Nat.not_le.mpr hbank)⟩)
      · exact hr
  · rw [step_read h]
    obtain ⟨hd, v, k, hr⟩ | ⟨hd, hr⟩ := hostRead_cases config size off { s with queue := q }
    · refine ⟨fun _ => ⟨_, hr⟩, fun hbad => absurd ?_ hbad⟩
      exact hd.elim .inr fun hb => .inl hb.1
    · refine ⟨fun hgood => absurd ?_ hd, fun _ => hr⟩
      exact hgood.elim (fun hb => .inr ⟨hb, hoff⟩) .inl

/-- Settles O46: the lemmas about the STATUS word, field by field. -/
theorem statusFields : Obligations.StatusFields := by
  intro s
  obtain ⟨h3, h0, h1, h2⟩ := s.result.code_iff
  obtain ⟨hready, hvalid⟩ := s.status_flags
  refine ⟨s.status_result, hready, hvalid, s.status_lt, h3, h0, h1, h2, fun v q h => ?_⟩
  exact step_writeReg (r := .status) (by decide) h

/-- Settles O6: `step_command`, `step_rowop` and `step_move`, at the states that `withFetchWord` builds too. -/
theorem stepRunsDecodedInstruction : Obligations.StepRunsDecodedInstruction := by
  refine ⟨fun w => rfl, fun s w q h _ => step_command h, fun s op h => step_rowop h, fun s w => ?_, fun s op => ?_, ?_⟩
  · rw [State.withFetchWord_cmd32]
    exact step_command ⟨rfl, rfl⟩
  · rw [State.withFetchWord_rowop6]
    exact step_rowop rfl
  · intro s m q h hm
    obtain ⟨w, hw, -⟩ | hc := classify_eq m
    · exact absurd hw (hm w)
    · exact step_move h hc

/-- Settles O8: no byte of the aperture has a specified value after reset, and a released block shows the host the registers of
reset where it cannot write them. -/
theorem resetValues : Obligations.ResetValues := by
  refine ⟨State.reset_readReg, rfl, rfl, rfl, rfl, rfl, rfl, rfl, rfl, fun i hi => ?_, fun s t h r hr => ?_⟩
  · refine ⟨Config.freeByte 0, 1, ?_⟩
    have hnone : apertureByte config State.reset i = none := if_neg (Nat.not_le.mpr hi)
    exact (hostRead_apertureByte config i State.reset).trans (by rw [readAperture_of_none hnone]; rfl)
  · cases h
    cases r with
    | cmd | status | winN | winS | winF | symRow | symBytes | symPtr => rfl
    | argN | argRow | argBytesLo | argBytesHi | argPtrtabLo | argPtrtabHi => cases hr

end Sys2Proof.Machine

/-! PROOFS. The statements about host memory (20_memory.md): what the host does to it, which bytes each command reads and how
it stops at one that it cannot read, and the aperture. -/

namespace Sys2Proof.Machine

/-! ### The host's own memory -/

/-- Settles O50: what an answering instruction leaves to the host is all that the statement names. -/
theorem commandsNeverWriteHost : Obligations.CommandsNeverWriteHost := by
  intro i s t h
  have hhost := exec_withHostOf h
  have hmem : t.hmem = s.hmem := (congrArg State.hmem hhost).symm
  refine ⟨fun a => by rw [hmem], hmem, fun r hr => ?_, (congrArg State.queue hhost).symm,
    (congrArg State.readData hhost).symm⟩
  rw [← hhost, State.withHostOf_readReg t s hr]

/-- Settles O52: the step is the store or the unmapping, and a read after either is the memory's own law. -/
theorem hostChangesMemory : Obligations.HostChangesMemory := by
  intro s a v q hwf
  refine ⟨fun h => ⟨s.hmem.store a.toNat v, step_move h rfl, Memory.wf_store v a.isLt hwf, ?_, fun x hx => ?_⟩,
    fun h => ⟨s.hmem.unmap a.toNat, step_move h rfl, Memory.wf_unmap _ hwf, ?_, fun x hx => ?_⟩⟩
  · rw [Memory.read_store, if_pos rfl]
  · rw [Memory.read_store, if_neg hx]
  · rw [Memory.read_unmap hwf, if_pos rfl]
  · rw [Memory.read_unmap hwf, if_neg hx]

/-! ### Reading bytes, entries and originals -/

/-- MemRead depends on the n bytes it reads and on no others (R61). -/
theorem memRead_congr {m m' : Memory} {a n : Nat} (h : ∀ i, i < n → m'.read (a + i) = m.read (a + i)) :
    memRead m' a n = memRead m a n := by
  induction n generalizing a with
  | zero => rfl
  | succ n ih =>
    have hrest : memRead m' (a + 1) n = memRead m (a + 1) n :=
      ih fun i hi => by simpa [Nat.add_assoc, Nat.add_comm 1] using h (i + 1) (by omega)
    rw [memRead, memRead, show m'.read a = m.read a from h 0 (by omega), hrest]

/-- MemRead stops at the first byte that cannot be read (R73, log 12). -/
theorem memRead_of_none {m : Memory} {a n j : Nat} (hj : j < n) (hbefore : ∀ i, i < j → (m.read (a + i)).isSome = true)
    (hnone : m.read (a + j) = none) : memRead m a n = .error (.fault (.unreadable (a + j))) := by
  induction j generalizing a n with
  | zero =>
    obtain ⟨n, rfl⟩ := Nat.exists_eq_add_of_lt hj
    rw [Nat.zero_add, memRead, show m.read a = none from hnone]
    rfl
  | succ j ih =>
    obtain ⟨n, rfl⟩ := Nat.exists_eq_add_of_lt (Nat.zero_lt_of_lt hj)
    obtain ⟨b, hb⟩ := Option.isSome_iff_exists.mp (hbefore 0 (by omega))
    have hshift (i : Nat) : a + 1 + i = a + (i + 1) := by omega
    have hrest : memRead m (a + 1) n = .error (.fault (.unreadable (a + 1 + j))) :=
      ih (by omega) (fun i hi => hshift i ▸ hbefore (i + 1) (by omega)) (hshift j ▸ hnone)
    rw [Nat.zero_add, memRead, show m.read a = some b from hb, ← hshift j]
    simp only [hrest]
    rfl

/-- The 8 bytes of a pointer-table entry decide what it reads as (R63). -/
theorem memRead64_congr {m m' : Memory} {a : Nat} (h : ∀ j, j < 8 → m'.read (a + j) = m.read (a + j)) :
    memRead64 m' a = memRead64 m a := by
  rw [memRead64, memRead64, memRead_congr h]

/-- An entry is answered only where its 8 bytes can be read, with the number of R63. -/
theorem memRead64_ok {m : Memory} {tab c : Nat} {p : Addr} (h : memRead64 m (tab + 8 * c) = .ok p) :
    entryReadable m tab c = true ∧ p = BitVec.ofNat 64 (entryValue m tab c) := by
  have hread : entryReadable m tab c = true := by
    cases hm : memRead m (tab + 8 * c) 8 with
    | error e => rw [memRead64, hm] at h; cases h
    | ok bs =>
      obtain ⟨hl, hb⟩ := (memRead_ok_iff _ _ _ _).mp hm
      refine List.all_eq_true.mpr fun j hj => ?_
      rw [hb j (hl.symm ▸ List.mem_range.mp hj), Option.isSome_some]
  exact ⟨hread, Except.ok.inj (h.symm.trans (memRead64_of_readable hread))⟩

/-- The bytes of `ORIG(c)` below `len(c)` decide what original c is read as (R64). -/
theorem readOriginal_congr {m m' : Memory} {w : Window} {c : Nat}
    (h : ∀ i, i < w.len c → origByte m' w c i = origByte m w c i) : readOriginal m' w c = readOriginal m w c := by
  unfold readOriginal
  cases hp : w.ptr[c]? with
  | none => rfl
  | some p =>
    refine memRead_congr fun i hi => ?_
    simpa [origByte, hi, hp] using h i hi

/-- An original with a byte that cannot be read stops the command at such a byte (R73). -/
theorem readOriginal_of_not_readable {m : Memory} {w : Window} {c : Nat} {p : Addr} (hp : w.ptr[c]? = some p)
    (h : w.readable m c = false) :
    ∃ i, i < w.len c ∧ m.read (p.toNat + i) = none ∧ readOriginal m w c = .error (.fault (.unreadable (p.toNat + i))) := by
  cases hr : readOriginal m w c with
  | ok bs =>
    obtain ⟨hl, hb⟩ := readOriginal_ok hr
    have hall : w.readable m c = true := List.all_eq_true.mpr fun i hi => by
      have hi := List.mem_range.mp hi
      rw [← hb i hi, List.getElem?_eq_getElem (hl.symm ▸ hi), Option.isSome_some]
    exact absurd hall (h ▸ Bool.false_ne_true)
  | error e =>
    rw [readOriginal, hp] at hr
    obtain ⟨x, hlo, hhi, hx, rfl⟩ := memRead_error hr
    obtain ⟨i, rfl⟩ := Nat.exists_eq_add_of_le hlo
    exact ⟨i, by omega, hx, rfl⟩

/-! ### The pointer table -/

/-- The k entries of the pointer table from entry c on (R63). -/
def tableEntries (m : Memory) (tab c k : Nat) : List Addr :=
  (List.range k).map fun d => BitVec.ofNat 64 (entryValue m tab (c + d))

/-- Pointer-table entry c can be read and is not null, so that the scan goes on past it (R184). -/
def EntryGood (m : Memory) (tab c : Nat) : Prop := entryReadable m tab c = true ∧ entryValue m tab c ≠ 0

/-- The Window that INIT is to build holds all entries of the table (R26). -/
theorem tableEntries_initWindow (s : State) : tableEntries s.hmem s.operandPtrtab 0 s.operandN = s.initWindow.ptr := by
  simp [tableEntries, State.initWindow]

/-- The scan goes through good entries, and answers for the rest with their pointers in front (R184). -/
theorem scanPointers_add {m : Memory} {tab c k : Nat} (n : Nat) (h : ∀ d, d < k → EntryGood m tab (c + d)) :
    scanPointers m tab c (k + n) =
      (scanPointers m tab (c + k) n).map (Option.map (tableEntries m tab c k ++ ·)) := by
  induction k generalizing n with
  | zero =>
    rw [Nat.zero_add, Nat.add_zero]
    cases scanPointers m tab c n with
    | error e => rfl
    | ok o => cases o <;> rfl
  | succ k ih =>
    obtain ⟨hread, hnull⟩ := h k (Nat.lt_succ_self k)
    rw [Nat.add_right_comm k 1 n, Nat.add_assoc k n 1, ih (n + 1) fun d hd => h d (by omega), scanPointers_succ hread,
      if_neg hnull, Nat.add_assoc c k 1]
    cases scanPointers m tab (c + (k + 1)) n with
    | error e => rfl
    | ok o =>
      cases o with
      | none => rfl
      | some ps => simp [Except.map, tableEntries, List.range_succ]

/-- A scan that answers pointers has found every entry good (R184). -/
theorem scanPointers_good {m : Memory} {tab c n : Nat} {ptr : List Addr} (h : scanPointers m tab c n = .ok (some ptr)) :
    ∀ d, d < n → EntryGood m tab (c + d) := by
  induction n generalizing c ptr with
  | zero => exact fun d hd => absurd hd (Nat.not_lt_zero d)
  | succ n ih =>
    have hread : entryReadable m tab c = true := by
      cases hp : memRead64 m (tab + 8 * c) with
      | error e => rw [scanPointers, hp] at h; cases h
      | ok p => exact (memRead64_ok hp).1
    rw [scanPointers_succ hread] at h
    split at h
    · cases h
    · next hnull =>
      cases hs : scanPointers m tab (c + 1) n with
      | error e => rw [hs] at h; cases h
      | ok o =>
        cases o with
        | none => rw [hs] at h; cases h
        | some ps =>
          intro d hd
          cases d with
          | zero => exact ⟨hread, hnull⟩
          | succ d => simpa [Nat.add_assoc, Nat.add_comm 1] using ih hs d (by omega)

/-- The scan depends on the entries up to the first null one, and on no other byte (R68). -/
theorem scanPointers_congr {m m' : Memory} {tab c n : Nat}
    (h : ∀ e j, c ≤ e → e < c + n → (∀ d, c ≤ d → d < e → entryValue m tab d ≠ 0) → j < 8 →
      m'.read (tab + 8 * e + j) = m.read (tab + 8 * e + j)) :
    scanPointers m' tab c n = scanPointers m tab c n := by
  induction n generalizing c with
  | zero => rfl
  | succ n ih =>
    have hentry : memRead64 m' (tab + 8 * c) = memRead64 m (tab + 8 * c) :=
      memRead64_congr fun j hj => h c j le_rfl (by omega) (fun d hlo hhi => by omega) hj
    rw [scanPointers, scanPointers, hentry]
    cases hp : memRead64 m (tab + 8 * c) with
    | error e => rfl
    | ok p =>
      by_cases hnull : p = 0
      · simp only [hnull, if_true]
      · have hvalue : entryValue m tab c ≠ 0 := fun hz => hnull (by rw [(memRead64_ok hp).2, hz]; rfl)
        have hrest : scanPointers m' tab (c + 1) n = scanPointers m tab (c + 1) n := by
          refine ih fun e j hlo hhi hnz hj => h e j (by omega) (by omega) (fun d hd1 hd2 => ?_) hj
          rcases Nat.eq_or_lt_of_le hd1 with rfl | hd
          · exact hvalue
          · exact hnz d hd hd2
        simp only [hnull, if_false, hrest]

/-! ### INIT, phase by phase -/

/-- Phase 1 passes where R183's checks do, with the S and F of R182. -/
theorem State.ParametersValid.setParameters {s : State} (h : s.ParametersValid) :
    Machine.setParameters s.operandN s.operandBytes = some (s.initS, s.initF) := by
  obtain ⟨hn, ht, hlt⟩ := h
  exact (setParameters_eq_some_iff ..).mpr ⟨hn, ht, rfl, hlt, rfl⟩

/-- Every other pair of operands fails phase 1 (R183). -/
theorem setParameters_of_not_valid {s : State} (h : ¬ s.ParametersValid) :
    setParameters s.operandN s.operandBytes = none := by
  cases hp : setParameters s.operandN s.operandBytes with
  | none => rfl
  | some p =>
    obtain ⟨hn, ht, hS, hlt, -⟩ := (setParameters_eq_some_iff _ _ p.1 p.2).mp hp
    rw [hS] at hlt
    exact absurd ⟨hn, ht, hlt⟩ h

/-- A table inside the address space is scanned (R184). -/
theorem setEncoderInput_of_space (m : Memory) {tab N : Nat} (h : tab + 8 * N ≤ addressTop) :
    setEncoderInput m tab N = scanPointers m tab 0 N := if_pos (decide_eq_true h)

/-- A table that would run past 2^64 is refused (R72). -/
theorem setEncoderInput_of_past (m : Memory) {tab N : Nat} (h : addressTop < tab + 8 * N) :
    setEncoderInput m tab N = .error (.refuse .pastAddressSpace) :=
  if_neg fun hspace => absurd (of_decide_eq_true hspace) (Nat.not_le.mpr h)

/-- Phase 2 passes on a valid table, with its entries (R184). -/
theorem State.TableValid.setEncoderInput {s : State} (h : s.TableValid) :
    Machine.setEncoderInput s.hmem s.operandPtrtab s.operandN = .ok (some s.initWindow.ptr) := by
  obtain ⟨hspace, hentries⟩ := h
  have hscan := scanPointers_add (c := 0) (k := s.operandN) 0 fun d hd => by
    rw [Nat.zero_add]; exact hentries d hd
  rw [setEncoderInput_of_space _ hspace]
  simpa [scanPointers, Except.map, tableEntries_initWindow] using hscan

/-- Phase 2 passes on no other table (R184). -/
theorem State.TableValid.of_setEncoderInput {s : State} {ptr : List Addr}
    (h : Machine.setEncoderInput s.hmem s.operandPtrtab s.operandN = .ok (some ptr)) : s.TableValid := by
  rcases Nat.lt_or_ge addressTop (s.operandPtrtab + 8 * s.operandN) with hpast | hspace
  · cases (setEncoderInput_of_past s.hmem hpast).symm.trans h
  · rw [setEncoderInput_of_space _ hspace] at h
    refine ⟨hspace, fun c hc => ?_⟩
    have hgood := scanPointers_good h c hc
    rwa [Nat.zero_add] at hgood

theorem Stop.toOutcome_ne_next (e : Stop) (t : State) : e.toOutcome ≠ .next t := by
  cases e <;> exact nofun

/-- INIT on parameters that fail phase 1 (R183). -/
theorem initWith_of_not_valid (cfg : Config) {s : State} (h : ¬ s.ParametersValid) :
    initWith cfg s = .next (s.failed .invalidInput) := by
  simp only [initWith, setParameters_of_not_valid h, State.release_setResult]

/-- INIT stops where phase 2 stops. -/
theorem initWith_of_table_error (cfg : Config) {s : State} (h : s.ParametersValid) {e : Stop}
    (ht : setEncoderInput s.hmem s.operandPtrtab s.operandN = .error e) : initWith cfg s = e.toOutcome := by
  simp only [initWith, h.setParameters, ht]
  rfl

/-- INIT on a table with a null entry (R184). -/
theorem initWith_of_table_null (cfg : Config) {s : State} (h : s.ParametersValid)
    (ht : setEncoderInput s.hmem s.operandPtrtab s.operandN = .ok none) :
    initWith cfg s = .next (s.failed .invalidInput) := by
  simp only [initWith, h.setParameters, ht, continueWith_ok, State.release_setResult]

/-- INIT on a valid table: the capacity check, then the lane sums and the commit (R186 to R190). -/
theorem initWith_of_table (cfg : Config) {s : State} (h : s.ParametersValid) (ht : s.TableValid) :
    initWith cfg s =
      if s.operandN ≤ cfg.nmax ∧ s.initS ≤ cfg.smax then
        continueWith (buildLaneSums cfg s.hmem s.initWindow) fun t => .next (s.release.commit s.initWindow t)
      else .next (s.failed .outOfMemory) := by
  simp only [initWith, h.setParameters, ht.setEncoderInput, continueWith_ok, State.release_setResult, fits, Bool.and_eq_true,
    decide_eq_true_eq]
  rfl

/-- Pointer c of the Window that INIT is to build is entry c of the table (R26). -/
theorem State.initWindow_ptr (s : State) {c : Nat} (hc : c < s.operandN) :
    ∃ p, s.initWindow.ptr[c]? = some p ∧ p.toNat = entryValue s.hmem s.operandPtrtab c := by
  refine ⟨BitVec.ofNat 64 (entryValue s.hmem s.operandPtrtab c), ?_, ?_⟩
  · simp [State.initWindow, hc]
  · rw [BitVec.toNat_ofNat, Nat.mod_eq_of_lt (entryValue_lt ..)]

/-- Phase 5 stops at the first original that it cannot read (R188). -/
theorem addColumns_of_error (cfg : Config) {m : Memory} {w : Window} {c n : Nat} {e : Stop} (hc : c < n)
    (hbefore : ∀ d, d < c → ∃ bs, readOriginal m w d = .ok bs) (he : readOriginal m w c = .error e) :
    addColumns cfg m w n = .error e := by
  have hok (d : Nat) (hd : d ≤ c) : ∃ t, addColumns cfg m w d = .ok t := by
    induction d with
    | zero => exact ⟨_, rfl⟩
    | succ d ih =>
      obtain ⟨t, ht⟩ := ih (by omega)
      obtain ⟨bs, hbs⟩ := hbefore d hd
      exact ⟨_, by rw [addColumns, ht, hbs]; rfl⟩
  induction n, hc using Nat.le_induction with
  | base =>
    obtain ⟨t, ht⟩ := hok c le_rfl
    rw [addColumns, ht, he]
    rfl
  | succ n _ ih => rw [addColumns, ih]

/-- Phase 5 depends on what the originals are read as, and on nothing else of host memory (R68). -/
theorem addColumns_congr (cfg : Config) {m m' : Memory} {w : Window} {n : Nat}
    (h : ∀ c, c < n → readOriginal m' w c = readOriginal m w c) : addColumns cfg m' w n = addColumns cfg m w n := by
  induction n with
  | zero => rfl
  | succ n ih => rw [addColumns, addColumns, ih fun c hc => h c (by omega), h n (Nat.lt_succ_self n)]

/-! ### ENCODE, step by step -/

/-- ENCODE on a READY block: the overlay, and then what it publishes (R210, R215 to R217). -/
theorem encodeWith_of_some (cfg : Config) {s : State} {b : Buffers} (hb : s.bufs = some b) :
    encodeWith cfg s =
      continueWith (overlay cfg s.hmem (s.window b) { prng := Prng.seed s.argRow s.winN, sum := b.sum, prod := b.prod })
        fun o =>
          .next (s.publish
            { b with
              sum := blend cfg s.argRow s.winS.toNat (mix cfg s.argRow b.lane s.winS.toNat (o.sum, o.prod))
              prod := (mix cfg s.argRow b.lane s.winS.toNat (o.sum, o.prod)).2 }
            s.argRow) := by
  unfold encodeWith
  rw [hb]
  rfl

/-- ENCODE on a block that is not READY (R211). -/
theorem encodeWith_of_none (cfg : Config) {s : State} (hb : s.bufs = none) :
    encodeWith cfg s = .next (s.setResult .invalidInput) := by
  unfold encodeWith
  rw [hb]

/-- The column of draw `j` of a generator (R147, R148). -/
def Prng.column (cfg : Config) (g : Prng) (n j : Nat) : Nat := columnOf (cfg.prng g.row g.count j) n

/-- The draws of an ENCODE are those of the generator it seeds (R212). -/
theorem Prng.column_seed (cfg : Config) (r n : Word) (j : Nat) :
    (Prng.seed r n).column cfg n.toNat j = drawnColumn cfg r n j := rfl

/-- A pair stops at its first original where that one stops, and else at its second (R213, D18). -/
theorem overlayPair_of_error {cfg : Config} {m : Memory} {w : Window} {i : Nat} {o : Overlay} {e : Stop}
    (h : readOriginal m w (o.prng.column cfg w.n o.prng.drawn) = .error e ∨
      (∃ a, readOriginal m w (o.prng.column cfg w.n o.prng.drawn) = .ok a) ∧
        readOriginal m w (o.prng.column cfg w.n (o.prng.drawn + 1)) = .error e) :
    overlayPair cfg m w i o = .error e := by
  unfold Prng.column at h
  unfold overlayPair
  simp only [Prng.draw]
  obtain h1 | ⟨⟨a, h1⟩, h2⟩ := h
  · rw [h1]
  · rw [h1, h2]

/-- Pairs after one that stopped are not come to. -/
theorem overlayPairs_of_error {cfg : Config} {m : Memory} {w : Window} {o : Overlay} {k n : Nat} {e : Stop}
    (h : overlayPairs cfg m w o k = .error e) (hn : k ≤ n) : overlayPairs cfg m w o n = .error e := by
  induction n, hn using Nat.le_induction with
  | base => exact h
  | succ n _ ih => rw [overlayPairs, ih]; rfl

/-- The overlay stops at the first drawn original that it cannot read (R213, log 12). -/
theorem overlayPairs_of_draw_error {cfg : Config} {m : Memory} {w : Window} {o : Overlay} {j n : Nat} {e : Stop}
    (h0 : o.prng.drawn = 0) (hp : ∀ c, c < w.n → c < w.ptr.length) (hn : 0 < w.n) (hj : j < 2 * n)
    (hbefore : ∀ k, k < j → w.readable m (o.prng.column cfg w.n k) = true)
    (he : readOriginal m w (o.prng.column cfg w.n j) = .error e) : overlayPairs cfg m w o n = .error e := by
  obtain ⟨q, hq⟩ := overlayPairs_of_readable (cfg := cfg) h0 hp hn (j / 2) fun k hk => hbefore k (by omega)
  have hprng : q.prng = { o.prng with drawn := 2 * (j / 2) } := by rw [overlayPairs_prng hq, h0, Nat.zero_add]
  have hcol (k : Nat) : q.prng.column cfg w.n k = o.prng.column cfg w.n k := by rw [hprng]; rfl
  have hpair : overlayPair cfg m w (j / 2) q = .error e := by
    refine overlayPair_of_error ?_
    rw [hcol, hcol, hprng]
    rcases Nat.mod_two_eq_zero_or_one j with hside | hside
    · have hdraw : 2 * (j / 2) = j := by omega
      exact .inl (hdraw.symm ▸ he)
    · have hdraw : 2 * (j / 2) + 1 = j := by omega
      have hread := hbefore (2 * (j / 2)) (by omega)
      exact .inr ⟨readOriginal_of_readable (hp _ (Nat.mod_lt _ hn)) hread, hdraw.symm ▸ he⟩
  refine overlayPairs_of_error (k := j / 2 + 1) ?_ (by omega)
  rw [overlayPairs, hq]
  exact hpair

/-- A pair depends on what its two originals are read as, and on nothing else of host memory (R68). -/
theorem overlayPair_congr {cfg : Config} {m m' : Memory} {w : Window} {i : Nat} {o : Overlay}
    (h1 : readOriginal m' w (o.prng.column cfg w.n o.prng.drawn) = readOriginal m w (o.prng.column cfg w.n o.prng.drawn))
    (h2 : readOriginal m' w (o.prng.column cfg w.n (o.prng.drawn + 1)) =
      readOriginal m w (o.prng.column cfg w.n (o.prng.drawn + 1))) :
    overlayPair cfg m' w i o = overlayPair cfg m w i o := by
  unfold Prng.column at h1 h2
  unfold overlayPair
  simp only [Prng.draw, h1, h2]

/-- The overlay depends on what the drawn originals are read as, and on nothing else of host memory (R68). -/
theorem overlayPairs_congr {cfg : Config} {m m' : Memory} {w : Window} {o : Overlay} {n : Nat} (h0 : o.prng.drawn = 0)
    (h : ∀ j, j < 2 * n → readOriginal m' w (o.prng.column cfg w.n j) = readOriginal m w (o.prng.column cfg w.n j)) :
    overlayPairs cfg m' w o n = overlayPairs cfg m w o n := by
  induction n with
  | zero => rfl
  | succ n ih =>
    rw [overlayPairs, overlayPairs, ih fun j hj => h j (by omega)]
    cases hq : overlayPairs cfg m w o n with
    | error e => rfl
    | ok q =>
      have hprng : q.prng = { o.prng with drawn := 2 * n } := by rw [overlayPairs_prng hq, h0, Nat.zero_add]
      refine overlayPair_congr ?_ ?_ <;> rw [hprng]
      · exact h (2 * n) (by omega)
      · exact h (2 * n + 1) (by omega)

/-- `overlayPairs_congr`, for the whole of step 2. -/
theorem overlay_congr {cfg : Config} {m m' : Memory} {w : Window} {o : Overlay} (h0 : o.prng.drawn = 0)
    (h : ∀ j, j < 2 * pairCount w.n →
      readOriginal m' w (o.prng.column cfg w.n j) = readOriginal m w (o.prng.column cfg w.n j)) :
    overlay cfg m' w o = overlay cfg m w o := by
  rw [overlay, overlay, overlayPairs_congr h0 h]

/-! ### Where a command faults, and where INIT is refused -/

/-- INIT faults at the first byte of the table that it cannot read (R73, log 12). -/
theorem initWith_of_entry_unreadable (cfg : Config) {s : State} {c j : Nat} (h : s.ParametersValid)
    (hspace : s.operandPtrtab + 8 * s.operandN ≤ addressTop) (hc : c < s.operandN)
    (hgood : ∀ d, d < c → EntryGood s.hmem s.operandPtrtab d) (hj : j < 8)
    (hbefore : ∀ i, i < j → (s.hmem.read (s.operandPtrtab + 8 * c + i)).isSome = true)
    (hnone : s.hmem.read (s.operandPtrtab + 8 * c + j) = none) :
    initWith cfg s = .fault (.unreadable (s.operandPtrtab + 8 * c + j)) := by
  refine initWith_of_table_error cfg h (e := .fault (.unreadable (s.operandPtrtab + 8 * c + j))) ?_
  obtain ⟨n, hn⟩ := Nat.exists_eq_add_of_lt hc
  have hentry : memRead64 s.hmem (s.operandPtrtab + 8 * c) = .error (.fault (.unreadable (s.operandPtrtab + 8 * c + j))) := by
    rw [memRead64, memRead_of_none hj hbefore hnone]
    rfl
  have hscan := scanPointers_add (c := 0) (k := c) (n + 1) fun d hd => by rw [Nat.zero_add]; exact hgood d hd
  rw [setEncoderInput_of_space _ hspace, hn, Nat.add_assoc, hscan, Nat.zero_add, scanPointers, hentry]
  rfl

/-- INIT faults at a byte of the first original that it cannot read (R73, log 12). -/
theorem initWith_of_original_unreadable {cfg : Config} {s : State} {c : Nat} (h : s.ParametersValid) (ht : s.TableValid)
    (hfits : s.operandN ≤ cfg.nmax ∧ s.initS ≤ cfg.smax) (hspace : s.initWindow.inAddressSpace = true) (hc : c < s.operandN)
    (hbefore : ∀ d, d < c → s.initWindow.readable s.hmem d = true) (hbad : s.initWindow.readable s.hmem c = false) :
    ∃ i, i < s.initWindow.len c ∧ s.hmem.read (entryValue s.hmem s.operandPtrtab c + i) = none ∧
      initWith cfg s = .fault (.unreadable (entryValue s.hmem s.operandPtrtab c + i)) := by
  obtain ⟨p, hp, hpv⟩ := s.initWindow_ptr hc
  obtain ⟨i, hi, hnone, herr⟩ := readOriginal_of_not_readable hp hbad
  rw [hpv] at hnone herr
  refine ⟨i, hi, hnone, ?_⟩
  have hlen : s.initWindow.ptr.length = s.operandN := by simp [State.initWindow]
  have hcols := addColumns_of_error cfg (n := s.operandN) hc
    (fun d hd => readOriginal_of_readable (hlen.symm ▸ hd.trans hc) (hbefore d hd)) herr
  rw [initWith_of_table cfg h ht, if_pos hfits, buildLaneSums, if_pos hspace, show s.initWindow.n = s.operandN from rfl, hcols]
  rfl

/-- ENCODE faults at a byte of the first drawn original that it cannot read (R73, log 12). -/
theorem encodeWith_of_draw_unreadable {cfg : Config} {s : State} {b : Buffers} {j : Nat} (hok : s.BuffersOk cfg b)
    (hb : s.bufs = some b) (hj : j < 2 * pairCount s.winN.toNat)
    (hbefore : ∀ k, k < j → (s.window b).readable s.hmem (drawnColumn cfg s.operandRow s.winN k) = true)
    (hbad : (s.window b).readable s.hmem (drawnColumn cfg s.operandRow s.winN j) = false) :
    ∃ i p, b.ptr[drawnColumn cfg s.operandRow s.winN j]? = some p ∧
      i < (s.window b).len (drawnColumn cfg s.operandRow s.winN j) ∧ s.hmem.read (p.toNat + i) = none ∧
      encodeWith cfg s = .fault (.unreadable (p.toNat + i)) := by
  have hptr (c : Nat) (hc : c < (s.window b).n) : c < (s.window b).ptr.length := hok.ptr_length.symm ▸ hc
  have hcol := hptr _ (Nat.mod_lt (cfg.prng s.operandRow s.winN j).toNat hok.n_pos)
  obtain ⟨i, hi, hnone, herr⟩ := readOriginal_of_not_readable (List.getElem?_eq_getElem hcol) hbad
  refine ⟨i, _, List.getElem?_eq_getElem hcol, hi, hnone, ?_⟩
  simp only [← Prng.column_seed] at hbefore herr
  have hpairs := overlayPairs_of_draw_error (cfg := cfg) (n := pairCount (s.window b).n)
    (o := { prng := Prng.seed s.argRow s.winN, sum := b.sum, prod := b.prod }) rfl hptr hok.n_pos hj hbefore herr
  rw [encodeWith_of_some cfg hb, overlay, if_pos hok.regions, hpairs]
  rfl

/-- Settles O23: the three commands' reads, each at the first place that cannot be read. -/
theorem commandsFaultOnUnreadableByte : Obligations.CommandsFaultOnUnreadableByte :=
  ⟨fun _ _ _ h hspace hc hgood hj hbefore hnone => initWith_of_entry_unreadable config h hspace hc hgood hj hbefore hnone,
    fun _ _ h ht hn hs hspace hc hbefore hbad => initWith_of_original_unreadable h ht ⟨hn, hs⟩ hspace hc hbefore hbad,
    fun _ b _ hi hb hj hbefore hbad => encodeWith_of_draw_unreadable (hi.buffers b hb) hb hj hbefore hbad⟩

/-- Where a region would run past 2^64, the Window that INIT is to build is not in the address space (R72). -/
theorem State.initWindow_past {s : State} {c : Nat} (hc : c < s.operandN)
    (h : addressTop < entryValue s.hmem s.operandPtrtab c + s.initWindow.len c) : s.initWindow.inAddressSpace = false := by
  obtain ⟨p, hp, hpv⟩ := s.initWindow_ptr hc
  rw [← Bool.not_eq_true, Window.inAddressSpace, List.all_eq_true]
  intro hall
  have hregion := of_decide_eq_true (hall c (List.mem_range.mpr hc))
  rw [List.getD_eq_getElem?_getD, hp, Option.getD_some, hpv] at hregion
  exact absurd hregion (Nat.not_le.mpr h)

/-- Settles O24: phase 2 refuses the table, and phase 4 the Window. -/
theorem initRefusedPastAddressSpace : Obligations.InitRefusedPastAddressSpace := by
  intro cfg s h
  refine ⟨rfl, fun hpast => initWith_of_table_error cfg h (setEncoderInput_of_past _ hpast), ?_⟩
  rintro ht hn hs ⟨c, hc, hpast⟩
  rw [initWith_of_table cfg h ht, if_pos ⟨hn, hs⟩, buildLaneSums, State.initWindow_past hc hpast]
  rfl

/-! ### What a command reads -/

/-- Phase 2 of INIT reads the entries up to the first null one (R68). -/
theorem setEncoderInput_congr {m m' : Memory} {tab N : Nat}
    (h : ∀ c j, c < N → (∀ d, d < c → entryValue m tab d ≠ 0) → j < 8 →
      m'.read (tab + 8 * c + j) = m.read (tab + 8 * c + j)) : setEncoderInput m' tab N = setEncoderInput m tab N := by
  have hscan : scanPointers m' tab 0 N = scanPointers m tab 0 N :=
    scanPointers_congr fun e j _ he hnz hj => h e j (by omega) (fun d hd => hnz d (Nat.zero_le d) hd) hj
  rw [setEncoderInput, setEncoderInput, hscan]

/-- Phases 4 and 5 of INIT read the originals of the Window (R68). -/
theorem buildLaneSums_congr (cfg : Config) {m m' : Memory} {w : Window}
    (h : ∀ c i, c < w.n → i < w.len c → origByte m' w c i = origByte m w c i) :
    buildLaneSums cfg m' w = buildLaneSums cfg m w := by
  rw [buildLaneSums, buildLaneSums, addColumns_congr cfg fun c hc => readOriginal_congr fun i hi => h c i hc hi]

/-- Tables that phase 2 reads alike make the same Window (R26). -/
theorem State.initWindow_congr {s : State} {m : Memory} (ht : s.TableValid) (ht' : State.TableValid { s with hmem := m })
    (h : setEncoderInput m s.operandPtrtab s.operandN = setEncoderInput s.hmem s.operandPtrtab s.operandN) :
    State.initWindow { s with hmem := m } = s.initWindow := by
  have hptr : (State.initWindow { s with hmem := m }).ptr = s.initWindow.ptr :=
    Option.some.inj (Except.ok.inj (ht'.setEncoderInput.symm.trans (h.trans ht.setEncoderInput)))
  exact congrArg (fun ptr => { s.initWindow with ptr := ptr }) hptr

/-- INIT's answer is the same, up to host memory, on any memory that agrees on the table and the originals it reads (R68). -/
theorem initWith_congr {cfg : Config} {s t : State} {m : Memory} (h : initWith cfg s = .next t)
    (htable : s.ParametersValid →
      setEncoderInput m s.operandPtrtab s.operandN = setEncoderInput s.hmem s.operandPtrtab s.operandN)
    (horig : t.ready = true → buildLaneSums cfg m s.initWindow = buildLaneSums cfg s.hmem s.initWindow) :
    initWith cfg { s with hmem := m } = .next { t with hmem := m } := by
  by_cases hv : s.ParametersValid
  · have htab := htable hv
    have hv' : State.ParametersValid { s with hmem := m } := hv
    cases hp : setEncoderInput s.hmem s.operandPtrtab s.operandN with
    | error e => exact absurd ((initWith_of_table_error cfg hv hp).symm.trans h) (e.toOutcome_ne_next t)
    | ok o =>
      cases o with
      | none =>
        cases (initWith_of_table_null cfg hv hp).symm.trans h
        exact initWith_of_table_null cfg hv' (htab.trans hp)
      | some ptr =>
        have ht := State.TableValid.of_setEncoderInput hp
        have ht' : State.TableValid { s with hmem := m } := State.TableValid.of_setEncoderInput (htab.trans hp)
        have hwin := State.initWindow_congr ht ht' htab
        rw [initWith_of_table cfg hv ht] at h
        rw [initWith_of_table cfg hv' ht', hwin]
        by_cases hfits : s.operandN ≤ cfg.nmax ∧ s.initS ≤ cfg.smax
        · rw [if_pos hfits] at h
          obtain ⟨lane, hl, hk⟩ := continueWith_next h
          cases hk
          refine (if_pos hfits).trans ?_
          simp only [(horig rfl).trans hl, continueWith_ok]
          rfl
        · rw [if_neg hfits] at h
          cases h
          exact if_neg hfits
  · cases (initWith_of_not_valid cfg hv).symm.trans h
    exact initWith_of_not_valid cfg (s := { s with hmem := m }) hv

/-- ENCODE's answer is the same, up to host memory, on any memory that agrees on the originals it draws (R68). -/
theorem encodeWith_congr {cfg : Config} {s t : State} {b : Buffers} {m : Memory} (hb : s.bufs = some b)
    (h : encodeWith cfg s = .next t)
    (horig : ∀ j i, j < 2 * pairCount s.winN.toNat → i < (s.window b).len (drawnColumn cfg s.operandRow s.winN j) →
      origByte m (s.window b) (drawnColumn cfg s.operandRow s.winN j) i =
        origByte s.hmem (s.window b) (drawnColumn cfg s.operandRow s.winN j) i) :
    encodeWith cfg { s with hmem := m } = .next { t with hmem := m } := by
  have hover := overlay_congr (cfg := cfg) (m := s.hmem) (m' := m) (w := s.window b)
    (o := { prng := Prng.seed s.argRow s.winN, sum := b.sum, prod := b.prod }) rfl
    fun j hj => readOriginal_congr fun i => Prng.column_seed cfg s.argRow s.winN j ▸ horig j i hj
  rw [encodeWith_of_some cfg hb] at h
  obtain ⟨o, ho, hk⟩ := continueWith_next h
  cases hk
  rw [encodeWith_of_some cfg (s := { s with hmem := m }) hb]
  exact congrArg (continueWith · _) (hover.trans ho)

/-- Settles O32: the answers of INIT and of ENCODE depend on the reads that `setEncoderInput`, `buildLaneSums` and the overlay
make, and FREE, ILLEGAL and an ENCODE that is not READY make none. -/
theorem commandsReadOnlyTheirRegions : Obligations.CommandsReadOnlyTheirRegions := by
  refine ⟨fun s t m h htable horig => ?_, fun s t b m hb h horig => encodeWith_congr hb h horig,
    fun s t m w => ⟨fun hr h => ?_, ?_, ?_⟩⟩
  · refine initWith_congr h (fun hv => setEncoderInput_congr fun c j => htable c j hv) fun hready => ?_
    refine buildLaneSums_congr config fun c i hc hi => ?_
    obtain ⟨p, hp, hpv⟩ := s.initWindow_ptr hc
    simp only [origByte, hi, if_true, hp, Option.bind_some, hpv]
    exact horig c i hready hc hi
  · have hb : s.bufs = none := by simpa [State.ready] using hr
    cases (encodeWith_of_none config hb).symm.trans h
    exact encodeWith_of_none config hb
  · rintro ⟨⟩
    rfl
  · rintro ⟨⟩
    rfl

/-! ### The aperture -/

/-- Byte j of a word put together from four bytes, the lowest first (R70). -/
theorem extractLsb'_of_bytes (b0 b1 b2 b3 : Byte) :
    (b3 ++ b2 ++ b1 ++ b0 : Word).extractLsb' 0 8 = b0 ∧ (b3 ++ b2 ++ b1 ++ b0 : Word).extractLsb' 8 8 = b1 ∧
      (b3 ++ b2 ++ b1 ++ b0 : Word).extractLsb' 16 8 = b2 ∧ (b3 ++ b2 ++ b1 ++ b0 : Word).extractLsb' 24 8 = b3 := by
  have hdrop {n : Nat} (x : BitVec n) (b : Byte) (k : Nat) : (x ++ b).extractLsb' (k + 8) 8 = x.extractLsb' k 8 :=
    BitVec.extractLsb'_append_eq_of_le (Nat.le_add_left 8 k)
  exact ⟨BitVec.extractLsb'_append_eq_right, (hdrop _ b0 0).trans BitVec.extractLsb'_append_eq_right,
    (hdrop _ b0 8).trans ((hdrop _ b1 0).trans BitVec.extractLsb'_append_eq_right),
    (hdrop _ b0 16).trans ((hdrop _ b1 8).trans BitVec.extractLsb'_append_eq_left)⟩

/-- Each byte of specified value is its byte of a 32-bit read, and nothing but the counter of free values changes (R70). -/
theorem readAperture32_bytes (cfg : Config) (s : State) (i : Nat) :
    ∃ v k, readAperture32 cfg s i = (v, { s with freeIx := k }) ∧
      ∀ j, j < 4 → ∀ b, apertureByte cfg s (i + j) = some b → v.extractLsb' (8 * j) 8 = b := by
  obtain ⟨k, b0, b1, b2, b3, hread, h0, h1, h2, h3⟩ := readAperture32_eq cfg s i
  obtain ⟨e0, e1, e2, e3⟩ := extractLsb'_of_bytes b0 b1 b2 b3
  refine ⟨_, k, hread, fun j hj b hb => ?_⟩
  match j, hj with
  | 0, _ => exact e0.trans (h0 b hb)
  | 1, _ => exact e1.trans (h1 b hb)
  | 2, _ => exact e2.trans (h2 b hb)
  | 3, _ => exact e3.trans (h3 b hb)

/-- A valid byte of the aperture is the byte of SUM, which has SYM_BYTES bytes and lies below SMAX (R70, R28, R29). -/
theorem State.Inv.apertureByte_valid {cfg : Config} {s : State} (h : s.Inv cfg) {b : Buffers} {i : Nat}
    (hv : s.symValid = true) (hi : i < s.symBytes.toNat) (hb : s.bufs = some b) :
    ∃ v, b.sum[i]? = some v ∧ apertureByte cfg s i = some v := by
  have hok := h.buffers b hb
  have hi' : i < s.winS.toNat := (h.symbol hv).1 ▸ hi
  have hsum : i < b.sum.length := hok.sum_length.symm ▸ hi'
  refine ⟨b.sum[i], List.getElem?_eq_getElem hsum, ?_⟩
  rw [apertureByte, if_neg (Nat.not_le.mpr (hi'.trans_le hok.s_le)), if_pos ⟨hv, hi⟩, hb]
  exact List.getElem?_eq_getElem hsum

/-- A host read of an aperture byte of specified value returns it and changes nothing of the block (R70). -/
theorem hostMove_hostRB_of_some {cfg : Config} {s : State} {i : Nat} {v : Byte} (h : apertureByte cfg s i = some v) :
    hostMove cfg (hostRB i) s = .next { s with readData := v.setWidth 32 } := by
  refine (hostRead_apertureByte cfg i s).trans ?_
  rw [readAperture_of_some h]
  rfl

/-- Settles O47: a valid byte and a byte at or beyond SMAX have the values that `apertureByte` specifies, alone and in a word. -/
theorem apertureReads : Obligations.ApertureReads := by
  intro cfg s hi
  refine ⟨fun i => ⟨fun b hv hlt hb => ?_, fun hle => ?_, fun _ _ => ?_⟩, fun i ha => ?_, fun size i v => ?_⟩
  · obtain ⟨v, hsum, hbyte⟩ := hi.apertureByte_valid hv hlt hb
    exact ⟨v, hsum, hostMove_hostRB_of_some hbyte⟩
  · exact hostMove_hostRB_of_some (apertureByte_beyond s hle)
  · obtain ⟨k, hk⟩ := readAperture_frame cfg s i
    exact ⟨_, k, (hostRead_apertureByte cfg i s).trans (by rw [hk]; rfl)⟩
  · obtain ⟨v, k, hread, hbytes⟩ := readAperture32_bytes cfg s i
    refine ⟨v, k, (hostRead_apertureWord cfg s ha).trans (by rw [hread]; rfl), fun j hj => ?_⟩
    refine ⟨fun b hv hlt hb => ?_, fun hle => ?_⟩
    · obtain ⟨x, hsum, hbyte⟩ := hi.apertureByte_valid hv hlt hb
      rw [hsum, hbytes j hj x hbyte]
    · exact hbytes j hj 0 (apertureByte_beyond s hle)
  · exact hostWrite_aperture v s (Nat.le_add_right ..)

end Sys2Proof.Machine

/-! PROOFS. The statements about the encoding (30_encoding.md): what each word and each row opcode means, and how the host's
programs reach the commands. -/

namespace Sys2Proof

/-! ### The fields of a CMD32 word -/

/-- A word is determined by its two fields (R91). -/
theorem eq_cmdWord_iff {w : Word} {zero : BitVec 24} {op : BitVec 8} :
    w = cmdWord zero op ↔ cmdZero w = zero ∧ cmdOp w = op := by
  constructor
  · rintro rfl
    exact ⟨BitVec.extractLsb'_append_eq_left, BitVec.extractLsb'_append_eq_right⟩
  · rintro ⟨rfl, rfl⟩
    exact (BitVec.extractLsb'_append_extractLsb' (w := 24) (len := 8) (x := w)).symm

/-- The words that select a command, by value (R92). -/
theorem selectsCommand_iff {w : Word} :
    selectsCommand w = true ↔ w = 0x00000001#32 ∨ w = 0x00000002#32 ∨ w = 0x00000003#32 := by
  simp only [selectsCommand, Bool.or_eq_true, beq_iff_eq, or_assoc]

/-- The words that select a command, by the numbers in bits 31:8 and 7:0 (R91, R92). -/
theorem selectsCommand_iff_toNat {w : Word} :
    selectsCommand w = true ↔ w.toNat / 256 = 0 ∧ 1 ≤ w.toNat % 256 ∧ w.toNat % 256 ≤ 3 := by
  rw [selectsCommand_iff]
  bv_omega

/-! ### Decoding and encoding are inverse -/

/-- A word that selects no command is illegal: with ZERO = 0 and OP = 1, 2 or 3 it would be a word of R92 (R93). -/
theorem decodeCmd_of_not_selects {w : Word} (h : selectsCommand w = false) : decodeCmd w = .illegal w := by
  have hne (op : BitVec 8) (hs : selectsCommand (cmdWord 0 op) = true) (hz : cmdZero w = 0) : cmdOp w ≠ op := by
    intro hop
    rw [eq_cmdWord_iff.mpr ⟨hz, hop⟩, hs] at h
    cases h
  unfold decodeCmd
  split
  · next hz => rw [if_neg (hne 0x01#8 rfl hz), if_neg (hne 0x02#8 rfl hz), if_neg (hne 0x03#8 rfl hz)]
  · rfl

theorem decode_encode {i : Instr} (h : i.WellFormed) : decode (encode i) = i := by
  cases i with
  | init | encode | free => decide
  | illegal w => exact decodeCmd_of_not_selects (Bool.not_eq_true' _ ▸ h)
  | rowop op => rfl

theorem decode_wellFormed_and_encode (it : Item) : (decode it).WellFormed ∧ encode (decode it) = it := by
  cases it with
  | rowop6 op => exact ⟨rfl, rfl⟩
  | cmd32 w =>
    cases hs : selectsCommand w with
    | true => obtain rfl | rfl | rfl := selectsCommand_iff.mp hs <;> decide
    | false =>
      have hd : decode (.cmd32 w) = .illegal w := decodeCmd_of_not_selects hs
      rw [hd]
      exact ⟨by rw [Instr.WellFormed, Instr.wellFormed, hs, Bool.not_false], rfl⟩

/-- An item decodes to an instruction exactly when the instruction is well formed and encodes to the item (R90). -/
theorem decode_eq_iff {it : Item} {i : Instr} : decode it = i ↔ i.WellFormed ∧ encode i = it := by
  constructor
  · rintro rfl
    exact decode_wellFormed_and_encode it
  · rintro ⟨hwf, rfl⟩
    exact decode_encode hwf

/-- A word decodes to a command exactly when it is the command's encoding. -/
theorem decode_cmd32_eq_iff {w m : Word} {i : Instr} (hwf : i.WellFormed) (he : encode i = .cmd32 m) :
    decode (.cmd32 w) = i ↔ w = m := by
  rw [decode_eq_iff, he, Item.cmd32.injEq, eq_comm]
  exact and_iff_right hwf

/-- A word decodes to ILLEGAL exactly when it selects no command (R93). -/
theorem decode_eq_illegal_iff {w : Word} : decode (.cmd32 w) = .illegal w ↔ ¬ selectsCommand w = true := by
  rw [decode_eq_iff, Instr.WellFormed, Instr.wellFormed, Bool.not_eq_true', Bool.not_eq_true]
  exact and_iff_left rfl

/-- Only the low six bits of a ROWOP6 value are used (R97). -/
theorem rowopBits_mod (v : Nat) : rowopBits (v % 64) = rowopBits v := by
  apply BitVec.eq_of_toNat_eq
  exact Nat.mod_mod v 64

/-- A table row of eight bits is a ROWOP6 value, which always means a row opcode (R90, R97). -/
theorem decodeTableWord_rowop (v : Nat) : decodeTableWord 8 v = some (.rowop (rowopBits v)) := rfl

/-- Settles O1. -/
theorem decodeEncodeWellFormed : Obligations.DecodeEncodeWellFormed := fun _ => decode_encode

/-- Settles O2. -/
theorem encodeDecodeEveryItem : Obligations.EncodeDecodeEveryItem := decode_wellFormed_and_encode

/-- Settles O3: the encodings of the three commands are the words of R92. -/
theorem commandSelectedByWholeWord : Obligations.CommandSelectedByWholeWord := fun _ =>
  ⟨decode_cmd32_eq_iff rfl rfl, decode_cmd32_eq_iff rfl rfl, decode_cmd32_eq_iff rfl rfl⟩

/-- Settles O5, by evaluating the decoder on the words of the two tables. -/
theorem specWordsDecode : Obligations.SpecWordsDecode := by
  unfold Obligations.SpecWordsDecode
  decide

namespace Machine

/-- Settles O4: the words that select no command, by value and by field; what such a word decodes to sets RESULT. -/
theorem otherWordsAreIllegal : Obligations.OtherWordsAreIllegal := by
  intro w
  refine ⟨?_, ?_, fun h s => ?_⟩
  · rw [decode_eq_illegal_iff, selectsCommand_iff]
    simp only [not_or, ne_eq]
  · rw [decode_eq_illegal_iff, selectsCommand_iff_toNat]
    omega
  · rw [h, exec_illegal]
    rfl

/-- Settles O40: SUM and PROD each have their selected cells added, which have S bytes as the buffers are in order. -/
theorem rowopMixesLane : Obligations.RowopMixesLane := by
  refine ⟨fun s b op hb hok => ?_, fun v => ?_⟩
  · have hcells : ∀ k, ((b.lane.get s.engine.lane).get k).length = s.winS.toNat := hok.cell_length s.engine.lane
    exact ⟨_, _, execRowop_of_some op hb, addSelected_length .., addSelected_length .., fun i hi =>
      ⟨addSelected_getElem? op 0 b.sum hcells hi, addSelected_getElem? op 3 b.prod hcells hi⟩⟩
  · rw [decodeTableWord_rowop, decodeTableWord_rowop, rowopBits_mod]

/-! ### Host programs: register writes, then a command -/

theorem run_succ_of_next (M : Host.Core) {s t : M.State} (n : Nat) (h : M.step s = .next t) :
    M.run (n + 1) s = M.run n t := by
  rw [Host.Core.run, h]

theorem run_one (M : Host.Core) (s : M.State) : M.run 1 s = M.step s := by
  rw [Host.Core.run]
  cases M.step s <;> rfl

/-- Writing a register neither reads nor writes the host's moves. -/
theorem State.withQueue_writeReg (s : State) (v : Word) (r : Reg) (q : List HostMove) :
    { s.writeReg v r with queue := q } = State.writeReg { s with queue := q } v r := by
  cases r <;> rfl

/-- A list of values stored in registers, the first one first. -/
def State.writeRegs (s : State) : List (Reg × Word) → State
  | [] => s
  | (r, v) :: l => (s.writeReg v r).writeRegs l

/-- Register writes followed by a command run the command on the state that the writes leave (R100). -/
theorem run_writes_command {s : State} {l : List (Reg × Word)} {w : Word} {q : List HostMove}
    (hcmd : ∀ p ∈ l, p.1 ≠ .cmd) (hr : s.engine.rowop = none)
    (hq : s.queue = l.map (fun p => hostW p.1 p.2) ++ hostW .cmd w :: q) :
    Host.Core.run core (l.length + 1) s = exec (decodeCmd w) (State.writeRegs { s with queue := q } l) := by
  induction l generalizing s with
  | nil => exact (run_one core s).trans (step_command ⟨hr, hq⟩)
  | cons p l ih =>
    obtain ⟨r, v⟩ := p
    obtain ⟨hne, hcmd⟩ := List.forall_mem_cons.mp hcmd
    have hstep := step_writeReg (v := v) hne ⟨hr, hq⟩
    rw [← State.withQueue_writeReg] at hstep
    obtain ⟨-, -, -, hengine, -⟩ := s.writeReg_frame v r
    rw [State.writeRegs, ← State.withQueue_writeReg]
    exact (run_succ_of_next core _ hstep).trans (ih hcmd (hengine ▸ hr) rfl)

/-- The two halves of a 64-bit operand assemble to it (R94, R101). -/
theorem pairValue_halves (x : BitVec 64) : pairValue (x.extractLsb' 32 32) (x.extractLsb' 0 32) = x.toNat := by
  have hlt : x.toNat < 2 ^ 64 := x.isLt
  rw [pairValue, BitVec.extractLsb'_toNat, BitVec.extractLsb'_toNat, Nat.shiftRight_eq_div_pow, Nat.shiftRight_eq_div_pow]
  omega

/-- The register writes of the shorthand `INIT n, bytes, ptrtab` (R101). -/
def initWrites (n : Word) (bytes tab : BitVec 64) : List (Reg × Word) :=
  [(.argN, n), (.argBytesLo, bytes.extractLsb' 0 32), (.argBytesHi, bytes.extractLsb' 32 32),
    (.argPtrtabLo, tab.extractLsb' 0 32), (.argPtrtabHi, tab.extractLsb' 32 32)]

/-- Settles O51: each shorthand is a list of register writes and then a command word. -/
theorem shorthandsRun : Obligations.ShorthandsRun := by
  refine ⟨fun s n bytes tab q hr hq => ?_, fun s row q hr hq => ?_, fun s q hr hq => ?_⟩
  · have hcmd : ∀ p ∈ initWrites n bytes tab, p.1 ≠ .cmd := by simp [initWrites]
    exact ⟨_, run_writes_command hcmd hr hq, rfl, pairValue_halves bytes, pairValue_halves tab, rfl⟩
  · exact run_writes_command (l := [(.argRow, row)]) (by simp) hr hq
  · exact run_writes_command (l := []) (by simp) hr hq

end Machine

end Sys2Proof

/-! PROOFS. The statements about GF(256) and the buffer primitives (40_gf256.md). Multiplication is linear on both sides, and
the bytes arise from 1 by doubling and XOR, so that a law that is additive in an operand needs checking at 1 and under
`gfDouble` only. -/

namespace Sys2Proof.Machine

/-! ### Multiplication is linear on both sides -/

/-- Adding the sum of two words under one condition is adding each under it. -/
theorem ite_xor_xor {w : Nat} (c : Bool) (p q a b : BitVec w) :
    (if c then p ^^^ q ^^^ (a ^^^ b) else p ^^^ q) = (if c then p ^^^ a else p) ^^^ (if c then q ^^^ b else q) := by
  cases c
  · rfl
  · simp only [if_true]
    ac_rfl

/-- Adding one word under the sum of two conditions is adding it under each. -/
theorem ite_bxor_xor {w : Nat} (c d : Bool) (p q a : BitVec w) :
    (if c ^^ d then p ^^^ q ^^^ a else p ^^^ q) = (if c then p ^^^ a else p) ^^^ (if d then q ^^^ a else q) := by
  have hswap : p ^^^ q ^^^ a = p ^^^ a ^^^ q := by ac_rfl
  have htwice : p ^^^ a ^^^ (q ^^^ a) = p ^^^ q := by
    rw [← BitVec.xor_assoc, ← hswap, BitVec.xor_assoc, BitVec.xor_self, BitVec.xor_zero]
  cases c <;> cases d
  · rfl
  · exact BitVec.xor_assoc p q a
  · exact hswap
  · exact htwice.symm

theorem gfDouble_xor (a b : Byte) : gfDouble (a ^^^ b) = gfDouble a ^^^ gfDouble b := by
  unfold gfDouble
  rw [BitVec.getLsbD_xor, BitVec.shiftLeft_xor_distrib, ite_bxor_xor]

/-- The loop of R121 is additive in the running product and the left factor together. -/
theorem gfMulLoop_xor_left (n : Nat) (p q a b x : Byte) :
    gfMulLoop n (p ^^^ q) (a ^^^ b) x = gfMulLoop n p a x ^^^ gfMulLoop n q b x := by
  induction n generalizing p q a b x with
  | zero => rfl
  | succ n ih => rw [gfMulLoop, ite_xor_xor, gfDouble_xor, ih, ← gfMulLoop, ← gfMulLoop]

/-- The loop of R121 is additive in the running product and the right factor together. -/
theorem gfMulLoop_xor_right (n : Nat) (p q a x y : Byte) :
    gfMulLoop n (p ^^^ q) a (x ^^^ y) = gfMulLoop n p a x ^^^ gfMulLoop n q a y := by
  induction n generalizing p q a x y with
  | zero => rfl
  | succ n ih =>
    rw [gfMulLoop, BitVec.getLsbD_xor, ite_bxor_xor, BitVec.ushiftRight_xor_distrib, ih, ← gfMulLoop, ← gfMulLoop]

theorem gfMul_xor_left (a b x : Byte) : gfMul (a ^^^ b) x = gfMul a x ^^^ gfMul b x := gfMulLoop_xor_left 8 0 0 a b x

theorem gfMul_xor_right (c x y : Byte) : gfMul c (x ^^^ y) = gfMul c x ^^^ gfMul c y := gfMulLoop_xor_right 8 0 0 c x y

theorem gfMul_zero_left (b : Byte) : gfMul 0 b = 0 := by simpa using gfMul_xor_left b b b

theorem gfMul_zero_right (a : Byte) : gfMul a 0 = 0 := by simpa using gfMul_xor_right a a a

/-! ### Every byte arises from 1 -/

theorem gfMul_one_left : ∀ b : Byte, gfMul 1 b = b := by decide +kernel

/-- The loop of R121 only doubles and adds. -/
theorem gfMulLoop_closed {P : Byte → Prop} (xor : ∀ a b, P a → P b → P (a ^^^ b)) (double : ∀ a, P a → P (gfDouble a))
    (n : Nat) {p a : Byte} (b : Byte) (hp : P p) (ha : P a) : P (gfMulLoop n p a b) := by
  induction n generalizing p a b with
  | zero => exact hp
  | succ n ih =>
    refine ih _ ?_ (double a ha)
    split
    · exact xor p a hp ha
    · exact hp

/-- What holds at 1 and is kept by doubling and by addition holds of every byte: `gfMul 1 b` computes b that way. -/
theorem byte_induction {P : Byte → Prop} (one : P 1) (xor : ∀ a b, P a → P b → P (a ^^^ b))
    (double : ∀ a, P a → P (gfDouble a)) (b : Byte) : P b := by
  have zero : P 0 := xor 1 1 one one
  exact gfMul_one_left b ▸ gfMulLoop_closed xor double 8 b zero one

theorem gfMulLoop_double (n : Nat) (p a b : Byte) :
    gfMulLoop n (gfDouble p) (gfDouble a) b = gfDouble (gfMulLoop n p a b) := by
  induction n generalizing p a b with
  | zero => rfl
  | succ n ih => rw [gfMulLoop, ← gfDouble_xor, ← apply_ite gfDouble, ih, ← gfMulLoop]

theorem gfMul_double_left (a b : Byte) : gfMul (gfDouble a) b = gfDouble (gfMul a b) := gfMulLoop_double 8 0 a b

theorem gfMul_double_right (a b : Byte) : gfMul a (gfDouble b) = gfDouble (gfMul a b) := by
  induction a using byte_induction with
  | one => rw [gfMul_one_left, gfMul_one_left]
  | xor a a' iha iha' => rw [gfMul_xor_left, gfMul_xor_left, iha, iha', gfDouble_xor]
  | double a ih => rw [gfMul_double_left, gfMul_double_left, ih]

theorem gfMul_one_right (a : Byte) : gfMul a 1 = a := by
  induction a using byte_induction with
  | one => exact gfMul_one_left 1
  | xor a b iha ihb => rw [gfMul_xor_left, iha, ihb]
  | double a ih => rw [gfMul_double_left, ih]

theorem gfMul_comm (a b : Byte) : gfMul a b = gfMul b a := by
  induction a using byte_induction with
  | one => rw [gfMul_one_left, gfMul_one_right]
  | xor a a' iha iha' => rw [gfMul_xor_left, gfMul_xor_right, iha, iha']
  | double a ih => rw [gfMul_double_left, gfMul_double_right, ih]

theorem gfMul_assoc (a b c : Byte) : gfMul (gfMul a b) c = gfMul a (gfMul b c) := by
  induction a using byte_induction with
  | one => rw [gfMul_one_left, gfMul_one_left]
  | xor a a' iha iha' => rw [gfMul_xor_left, gfMul_xor_left, gfMul_xor_left, iha, iha']
  | double a ih => rw [gfMul_double_left, gfMul_double_left, gfMul_double_left, ih]

/-- Settles O13: `gfMul` is linear on both sides and associative. -/
theorem gfMulLinear : Obligations.GfMulLinear := fun a b c x y =>
  ⟨gfMul_xor_right c x y, gfMul_xor_left a b x, (gfMul_assoc a b x).symm⟩

/-! ### Squaring -/

theorem gfSqr_one : gfSqr 1 = 1 := gfMul_one_left 1

theorem gfSqr_gfMul (a b : Byte) : gfSqr (gfMul a b) = gfMul (gfSqr a) (gfSqr b) := by
  rw [gfSqr, gfMul_assoc, ← gfMul_assoc b, gfMul_comm b a, gfMul_assoc a b b, ← gfMul_assoc a a, ← gfSqr, ← gfSqr]

/-- The two mixed products of a square cancel: characteristic 2 (R123). -/
theorem gfSqr_xor (a b : Byte) : gfSqr (a ^^^ b) = gfSqr a ^^^ gfSqr b := by
  calc gfSqr (a ^^^ b) = gfMul a a ^^^ gfMul a b ^^^ (gfMul a b ^^^ gfMul b b) := by
        rw [gfSqr, gfMul_xor_left, gfMul_xor_right, gfMul_xor_right, gfMul_comm b a]
    _ = gfSqr a ^^^ gfSqr b := by
        rw [BitVec.xor_assoc, ← BitVec.xor_assoc (gfMul a b), BitVec.xor_self, BitVec.zero_xor, gfSqr, gfSqr]

theorem gfDouble_eq_gfMul (a : Byte) : gfDouble a = gfMul 2 a := by
  calc gfDouble a = gfMul (gfDouble 1) a := by rw [gfMul_double_left, gfMul_one_left]
    _ = gfMul 2 a := by rw [show gfDouble 1 = 2 by decide]

/-- Squaring eight times respects sums and products and keeps 1 and x, so it keeps every byte. -/
theorem gfSqr_iterate_eight (a : Byte) : gfSqr^[8] a = a := by
  induction a using byte_induction with
  | one => exact Function.iterate_fixed gfSqr_one 8
  | xor a b iha ihb => rw [Function.Semiconj₂.iterate gfSqr_xor, iha, ihb]
  | double a ih =>
    rw [gfDouble_eq_gfMul, Function.Semiconj₂.iterate gfSqr_gfMul, ih, show gfSqr^[8] 2 = 2 by decide +kernel]

theorem gfPow_add (a : Byte) (m n : Nat) : gfPow a (m + n) = gfMul (gfPow a m) (gfPow a n) := by
  induction m with
  | zero => rw [Nat.zero_add, gfPow, gfMul_one_left]
  | succ m ih => rw [Nat.succ_add, gfPow, ih, gfPow, gfMul_assoc]

theorem gfPow_two_pow (a : Byte) (k : Nat) : gfPow a (2 ^ k) = gfSqr^[k] a := by
  induction k with
  | zero => exact gfMul_one_right a
  | succ k ih => rw [Nat.pow_succ, Nat.mul_two, gfPow_add, ih, Function.iterate_succ_apply', gfSqr]

/-! ### Division -/

theorem gfMul_gfMul_gfPow (a : Byte) : gfMul a (gfMul a (gfPow a 254)) = a :=
  (gfPow_two_pow a 8).trans (gfSqr_iterate_eight a)

/-- Only 0 and 1 are their own squares. This is where POLY being irreducible enters: with two coprime factors there would be more. -/
theorem eq_zero_or_one_of_gfSqr_eq_self : ∀ e : Byte, gfSqr e = e → e = 0 ∨ e = 1 := by decide +kernel

/-- `a^254` inverts a: `a^255` is its own square, and it is 0 only where a is. -/
theorem gfMul_gfPow_254 {a : Byte} (ha : a ≠ 0) : gfMul a (gfPow a 254) = 1 := by
  have hself := gfMul_gfMul_gfPow a
  have hsqr : gfSqr (gfMul a (gfPow a 254)) = gfMul a (gfPow a 254) := by
    rw [gfSqr, ← gfMul_assoc, gfMul_comm _ a, hself]
  refine (eq_zero_or_one_of_gfSqr_eq_self _ hsqr).resolve_left fun hzero => ha ?_
  rw [← hself, hzero, gfMul_zero_right]

theorem gfMul_ne_zero {a b : Byte} (ha : a ≠ 0) (hb : b ≠ 0) : gfMul a b ≠ 0 := by
  intro h
  refine hb ?_
  calc b = gfMul (gfMul a (gfPow a 254)) b := by rw [gfMul_gfPow_254 ha, gfMul_one_left]
    _ = gfMul (gfPow a 254) (gfMul a b) := by rw [gfMul_comm a, gfMul_assoc]
    _ = 0 := by rw [h, gfMul_zero_right]

theorem gfSqr_ne_zero {a : Byte} (ha : a ≠ 0) : gfSqr a ≠ 0 := gfMul_ne_zero ha ha

theorem gfSqr_bijective : Function.Bijective gfSqr :=
  Function.bijective_iff_has_inverse.mpr ⟨gfSqr^[7], gfSqr_iterate_eight, fun a =>
    (Function.iterate_succ_apply' gfSqr 7 a).symm.trans (gfSqr_iterate_eight a)⟩

/-- Settles O14: squaring is undone by squaring seven times more. -/
theorem gfSquareAdditiveBijection : Obligations.GfSquareAdditiveBijection :=
  ⟨fun _ => rfl, gfMul_zero_left 0, gfSqr_one, gfSqr_xor, gfSqr_bijective, fun _ => gfSqr_ne_zero,
    by decide, by decide, by decide⟩

/-! ### The product of polynomials modulo POLY -/

/-- The product is the sum of the left factor doubled i times, over the bits i of the right factor (R121). -/
theorem gfMulLoop_eq_foldl (n : Nat) (p a b : Byte) :
    gfMulLoop n p a b = (List.range n).foldl (fun p i => if b.getLsbD i then p ^^^ gfDouble^[i] a else p) p := by
  induction n generalizing p a b with
  | zero => rfl
  | succ n ih =>
    rw [gfMulLoop, ih, List.range_succ_eq_map, List.foldl_cons, List.foldl_map]
    simp only [BitVec.getLsbD_ushiftRight, Nat.add_comm 1, Function.iterate_succ_apply, Function.iterate_zero_apply]

theorem polyReduce_xor (p q : Nat) : polyReduce (p ^^^ q) = polyReduce p ^^^ polyReduce q := by
  have hstep (c d : Bool) (p q a : Nat) :
      (if c ^^ d then p ^^^ q ^^^ a else p ^^^ q) = (if c then p ^^^ a else p) ^^^ (if d then q ^^^ a else q) := by
    cases c <;> cases d <;> simp [Nat.xor_comm, Nat.xor_left_comm]
  unfold polyReduce
  generalize [14, 13, 12, 11, 10, 9, 8] = l
  induction l generalizing p q with
  | nil => rfl
  | cons i l ih => rw [List.foldl_cons, Nat.testBit_xor, hstep, ih, ← List.foldl_cons, ← List.foldl_cons]

/-- A polynomial of degree below 8 is its own remainder. -/
theorem polyReduce_byte (a : Byte) : polyReduce a.toNat = a.toNat := by
  have hbit (i : Nat) (hi : 8 ≤ i) : a.toNat.testBit i = false :=
    Nat.testBit_lt_two_pow (a.isLt.trans_le (Nat.pow_le_pow_right (by decide) hi))
  simp [polyReduce, hbit]

/-- The multiples of POLY by a power of x have the remainder 0. -/
theorem polyReduce_shifted_POLY : ∀ i < 7, polyReduce (POLY <<< i) = 0 := by decide

/-- `gfDouble` shifts, and takes POLY away where x^8 arises. -/
theorem toNat_gfDouble : ∀ a : Byte, (gfDouble a).toNat = a.toNat <<< 1 ^^^ if a.getLsbD 7 then POLY else 0 := by
  decide +kernel

theorem polyReduce_shifted_gfDouble (a : Byte) {i : Nat} (hi : i < 7) :
    polyReduce ((gfDouble a).toNat <<< i) = polyReduce (a.toNat <<< (i + 1)) := by
  rw [toNat_gfDouble, Nat.shiftLeft_xor_distrib, polyReduce_xor, ← Nat.shiftLeft_add, Nat.add_comm 1]
  split
  · rw [polyReduce_shifted_POLY i hi, Nat.xor_zero]
  · rw [Nat.zero_shiftLeft, show polyReduce 0 = 0 from polyReduce_byte 0, Nat.xor_zero]

/-- Reducing `a * x^i` is doubling a i times. -/
theorem polyReduce_shiftLeft (a : Byte) {i : Nat} (hi : i < 8) : polyReduce (a.toNat <<< i) = (gfDouble^[i] a).toNat := by
  induction i generalizing a with
  | zero => exact polyReduce_byte a
  | succ i ih =>
    rw [← polyReduce_shifted_gfDouble a (Nat.lt_of_succ_lt_succ hi), ih _ (Nat.lt_of_succ_lt hi), Function.iterate_succ_apply]

/-- The partial sums of the product of polynomials reduce to the partial sums of `gfMul` (R120, R121). -/
theorem polyReduce_polyProduct (a b : Byte) : polyReduce (polyProduct a b) = (gfMul a b).toNat := by
  rw [gfMul, gfMulLoop_eq_foldl]
  refine List.foldl_rel (r := fun (p : Nat) (q : Byte) => polyReduce p = q.toNat) (polyReduce_byte 0) fun i hi p q h => ?_
  split
  · rw [polyReduce_xor, h, polyReduce_shiftLeft a (List.mem_range.mp hi), BitVec.toNat_xor]
  · exact h

/-- Settles O12. -/
theorem gfMulIsPolynomialProduct : Obligations.GfMulIsPolynomialProduct := by
  refine ⟨fun a b => ?_, fun b => ⟨gfMul_zero_left b, gfMul_zero_right b, gfMul_one_left b⟩, fun _ _ => gfMul_ne_zero,
    gfMul_comm, by decide, by decide⟩
  rw [polyReduce_polyProduct]
  exact ⟨(BitVec.ofNat_toNat 8 (gfMul a b)).symm, (gfMul a b).isLt⟩

/-! ### The corner cases of the buffer primitives -/

/-- Bytes at n and above stay (R124, R125). -/
theorem bufUpdate_getElem?_of_le {f : Byte → Byte → Byte} {dst src : Buf} {n i : Nat} (h : n ≤ i) :
    (bufUpdate f dst src n)[i]? = dst[i]? := by
  rw [bufUpdate_getElem?, if_neg fun hi => Nat.not_lt.mpr h hi.1]

/-- An update that keeps each byte of the destination keeps the destination. -/
theorem bufUpdate_of_keeps {f : Byte → Byte → Byte} (hf : ∀ d x, f d x = d) (dst src : Buf) (n : Nat) :
    bufUpdate f dst src n = dst := by
  refine List.ext_getElem? fun i => ?_
  rw [bufUpdate_getElem?]
  simp only [hf, Option.map_id', ite_self]

theorem bufAdd_zero (dst src : Buf) : bufAdd dst src 0 = dst :=
  List.ext_getElem? fun i => bufUpdate_getElem?_of_le (Nat.zero_le i)

/-- Addition is its own inverse (R124). -/
theorem bufAdd_bufAdd (dst src : Buf) (n : Nat) : bufAdd (bufAdd dst src n) src n = dst := by
  refine List.ext_getElem? fun i => ?_
  rw [bufAdd_getElem?, bufAdd_getElem?]
  split
  · simp [Function.comp_def]
  · rfl

theorem bufMuladd_zero_coefficient (dst src : Buf) (n : Nat) : bufMuladd dst 0 src n = dst :=
  bufUpdate_of_keeps (fun d x => by rw [gfMul_zero_left]; exact BitVec.xor_zero) dst src n

theorem bufMuladd_one_coefficient (dst src : Buf) (n : Nat) : bufMuladd dst 1 src n = bufAdd dst src n := by
  simp only [bufMuladd, bufAdd, gfMul_one_left]

/-- A zero-tailed copy is the sum of zero and its source: adding the source again leaves zero (R126). -/
theorem bufAdd_bufCopyZt {src : Buf} {n S : Nat} (hS : n ≤ S) (hn : n ≤ src.length) :
    bufAdd (bufCopyZt src n S) src n = zeroBuf S := by
  refine List.ext_getElem? fun i => ?_
  rw [bufAdd_getElem?, bufCopyZt_getElem? hn, zeroBuf, List.getElem?_replicate]
  by_cases hi : i < n
  · simp [hi, hi.trans_le hn, hi.trans_le hS]
  · simp [hi]

/-- Settles O15. -/
theorem bufferPrimitiveCorners : Obligations.BufferPrimitiveCorners := fun dst src _ n _ =>
  ⟨bufAdd_zero dst src, bufAdd_bufAdd dst src n, bufMuladd_zero_coefficient dst src n, bufMuladd_one_coefficient dst src n,
    bufAdd_bufCopyZt, fun _ => bufUpdate_getElem?_of_le⟩

/-! ### The row opcode -/

/-- Settles O41. -/
theorem rowopWithoutBuffers : Obligations.RowopWithoutBuffers := fun _ op => execRowop_of_none op

end Sys2Proof.Machine

/-! PROOFS. The statements about the XOR accumulators (42_xor_accumulator.md). An accumulator stands for the buffer that
FINALIZE would leave in its destination. Each operation acts on that buffer as plain `buf_add` does, wherever the flushes fall.
Only the order in which sources are read differs, so that the two engines may stop differently: answers are compared as options,
in which reads commute. -/

namespace Sys2Proof.Machine

/-! ### Answers, with the reason of a stop forgotten -/

@[simp] theorem toOption_ok {α : Type} (a : α) : (Except.ok a : Except Stop α).toOption = some a := rfl

@[simp] theorem toOption_error {α : Type} (e : Stop) : (Except.error e : Except Stop α).toOption = none := rfl

@[simp] theorem toOption_map {α β : Type} (f : α → β) (x : Except Stop α) : (x.map f).toOption = x.toOption.map f := by
  cases x <;> rfl

@[simp] theorem toOption_bind {α β : Type} (x : Except Stop α) (f : α → Except Stop β) :
    (x.bind f).toOption = x.toOption.bind fun a => (f a).toOption := by
  cases x <;> rfl

theorem toOption_eq_some_iff {α : Type} {x : Except Stop α} {a : α} : x.toOption = some a ↔ x = .ok a := by
  cases x <;> simp

/-- A computation goes on to a next state exactly where it answers. -/
theorem continueWith_eq_next_iff {α : Type} (x : Except Stop α) (f : α → State) (t : State) :
    continueWith x (fun a => .next (f a)) = .next t ↔ x.toOption.map f = some t := by
  cases x with
  | ok a => simp
  | error e => exact ⟨fun h => absurd h (e.toOutcome_ne_next t), nofun⟩

/-- If every step of a loop that can stop acts on the value of its state as a step of a plain loop does, so do the loops. -/
theorem foldlM_value {α β γ : Type} {value : α → Option γ} {step : α → β → Except Stop α} {act : γ → β → γ} {l : List β}
    (h : ∀ r ∈ l, ∀ a, (step a r).toOption.bind value = (value a).map (act · r)) (a : α) :
    (l.foldlM step a).toOption.bind value = (value a).map fun c => l.foldl act c := by
  induction l generalizing a with
  | nil => exact Option.map_id'.symm
  | cons r l ih =>
    obtain ⟨hr, hl⟩ := List.forall_mem_cons.mp h
    calc ((r :: l).foldlM step a).toOption.bind value
        = (step a r).toOption.bind fun a' => (l.foldlM step a').toOption.bind value := by
          rw [List.foldlM_cons, ← Option.bind_assoc]
          exact congrArg (Option.bind · value) (toOption_bind ..)
      _ = ((step a r).toOption.bind value).map fun c => l.foldl act c := by
          simp only [ih hl, Option.map_bind, Function.comp_def]
      _ = (value a).map fun c => (r :: l).foldl act c := by
          simp only [hr, Option.map_map, Function.comp_def, List.foldl_cons]

/-! ### buf_add commutes and associates -/

theorem bufAdd_right_comm (dst a b : Buf) (m n : Nat) : bufAdd (bufAdd dst a m) b n = bufAdd (bufAdd dst b n) a m := by
  refine List.ext_getElem? fun i => ?_
  simp only [bufAdd_getElem?]
  by_cases ha : i < m ∧ i < a.length
  · by_cases hb : i < n ∧ i < b.length
    · simp only [ha, hb, and_self, if_true, Option.map_map, Function.comp_def, BitVec.xor_assoc, BitVec.xor_comm (a[i]?.getD 0)]
    · simp only [ha, hb, and_self, if_true, if_false]
  · simp only [ha, if_false]

theorem bufAdd_assoc {q : Buf} {S : Nat} (hq : q.length = S) (dst b : Buf) :
    bufAdd dst (bufAdd q b S) S = bufAdd (bufAdd dst q S) b S := by
  refine List.ext_getElem? fun i => ?_
  simp only [bufAdd_getElem?, bufAdd_length, hq, and_self]
  by_cases hi : i < S
  · have hqi : q[i]? = some q[i] := List.getElem?_eq_getElem (hq.symm ▸ hi)
    by_cases hb : i < b.length
    · simp [hi, hb, hqi, Function.comp_def, BitVec.xor_assoc]
    · simp [hi, hb]
  · simp [hi]

theorem bufAdd_zeroBuf (dst : Buf) (S : Nat) : bufAdd dst (zeroBuf S) S = dst := by
  refine List.ext_getElem? fun i => ?_
  rw [bufAdd_getElem?, zeroBuf_length]
  by_cases hi : i < S
  · simp [zeroBuf, hi]
  · simp [hi]

/-! ### One accumulator -/

/-- The buffer an accumulator stands for: what FINALIZE would leave in its destination, if it answers (R164). -/
def Xacc.value (src : Sources) (x : Xacc) : Option Buf := (x.finalize src).toOption.map Xacc.dest

/-- The value is the destination with the XOR over the queue added (R163). -/
theorem Xacc.value_eq (src : Sources) (x : Xacc) :
    x.value src = (src.xorAll x.queue).toOption.map fun q => bufAdd x.dest q src.window.s := by
  rw [Xacc.value, Xacc.finalize, Xacc.flush, toOption_map, Option.map_map]
  rfl

/-- FINALIZE leaves the value in the destination, and an empty queue (R164). -/
theorem Xacc.finalize_toOption (src : Sources) (x : Xacc) :
    (x.finalize src).toOption = (x.value src).map fun d => { dest := d, queue := [] } := by
  rw [Xacc.value_eq, Xacc.finalize, Xacc.flush, toOption_map, Option.map_map]
  rfl

/-- With nothing queued the value is the destination as it stands. -/
theorem Xacc.value_of_empty {x : Xacc} (src : Sources) (h : x.queue = []) : x.value src = some x.dest := by
  rw [Xacc.value, Xacc.finalize, Xacc.flush_empty src h, bufAdd_zeroBuf]
  rfl

/-- A flush keeps the value (R163). -/
theorem Xacc.flush_value (src : Sources) (x : Xacc) : (x.flush src).toOption.bind (Xacc.value src) = x.value src := by
  have hempty (d : Buf) : Xacc.value src { dest := d, queue := [] } = some d := Xacc.value_of_empty src rfl
  rw [← Xacc.finalize, Xacc.finalize_toOption, Option.bind_map]
  simp only [Function.comp_def, hempty, Option.bind_fun_some]

/-- A source at the end of a queue adds its bytes to the XOR over the rest (R163). -/
theorem Sources.xorAll_concat (src : Sources) (l : List SrcRef) (r : SrcRef) :
    (src.xorAll (l ++ [r])).toOption =
      (src.xorAll l).toOption.bind fun x => (src.bytes r).toOption.map fun b => bufAdd x b src.window.s := by
  induction l with
  | nil => simp [Sources.xorAll, Option.map_eq_bind]
  | cons a l ih =>
    simp only [List.cons_append, Sources.xorAll, toOption_bind, toOption_map, ih, Option.map_bind, Option.bind_assoc,
      Option.bind_map, Option.map_map, Function.comp_def, bufAdd_right_comm _ _ _ src.window.s src.window.s]

/-- A queued source adds its bytes to the value, though the destination does not hold them yet (R161). -/
theorem Xacc.enqueue_value (src : Sources) (x : Xacc) (r : SrcRef) :
    Xacc.value src { x with queue := x.queue ++ [r] } =
      (x.value src).bind fun d => (src.bytes r).toOption.map fun b => bufAdd d b src.window.s := by
  rw [Xacc.value_eq, Xacc.value_eq, Sources.xorAll_concat]
  cases hq : src.xorAll x.queue with
  | error e => rfl
  | ok q =>
    simp only [toOption_ok, Option.bind_some, Option.map_some, Option.map_map, Function.comp_def,
      bufAdd_assoc (Sources.xorAll_length hq)]

/-- ADD adds the source's bytes to the value, whether it flushes or not (R162). -/
theorem Xacc.add_value (x : Xacc) (depth : Nat) (src : Sources) (r : SrcRef) :
    (x.add depth src r).toOption.bind (Xacc.value src) =
      (x.value src).bind fun d => (src.bytes r).toOption.map fun b => bufAdd d b src.window.s := by
  rw [← Xacc.enqueue_value]
  obtain ⟨-, h⟩ | ⟨-, h⟩ := x.add_cases depth src r
  · rw [h]
    rfl
  · rw [h, Xacc.flush_value]

/-- A computation followed by FINALIZE leaves its value in the destination, and an empty queue. -/
theorem Xacc.bind_finalize_toOption (src : Sources) (x : Except Stop Xacc) :
    (x.bind fun z => z.finalize src).toOption =
      (x.toOption.bind (Xacc.value src)).map fun d => { dest := d, queue := [] } := by
  simp only [toOption_bind, Xacc.finalize_toOption, Option.map_bind, Function.comp_def]

/-- Settles O36: FINALIZE leaves the value, to which each ADD has added its source. -/
theorem accumulatorContract : Obligations.AccumulatorContract := by
  intro src depth x refs bytes _ hq hbytes
  have hstep : ∀ r ∈ refs, ∀ z : Xacc, (z.add depth src r).toOption.bind (Xacc.value src) =
      (z.value src).map fun d => bufAdd d (bytes r) src.window.s := fun r hr z => by
    simp only [Xacc.add_value, (hbytes r hr).1, toOption_ok, Option.bind_some, Option.map_eq_bind, Function.comp_def]
  refine ⟨{ dest := refs.foldl (fun d r => bufAdd d (bytes r) src.window.s) x.dest, queue := [] },
    toOption_eq_some_iff.mp ?_, rfl, rfl⟩
  rw [Xacc.bind_finalize_toOption, foldlM_value hstep, Xacc.value_of_empty src hq, Option.map_some, Option.map_some]

/-- The final column adds its F bytes to the value, past the queue (R165). -/
theorem Xacc.addDirect_value (x : Xacc) (src : Sources) (c : Nat) :
    (x.addDirect src c).toOption.bind (Xacc.value src) =
      (x.value src).bind fun d =>
        (readOriginal src.mem src.window c).toOption.map fun b => bufAdd d b (src.window.len c) := by
  simp only [Xacc.addDirect, toOption_map, Function.comp_def, Xacc.value_eq, Option.map_eq_bind,
    Option.bind_assoc, Option.bind_some]
  rw [Option.bind_comm]
  simp only [bufAdd_right_comm _ _ _ (src.window.len c) src.window.s]

/-- An overlay original adds its `len(c)` bytes to the value, through the queue or past it (R165). -/
theorem Xacc.addOriginal_value (x : Xacc) (depth : Nat) (src : Sources) (c : Nat) :
    (x.addOriginal depth src c).toOption.bind (Xacc.value src) =
      (x.value src).bind fun d =>
        (readOriginal src.mem src.window c).toOption.map fun b => bufAdd d b (src.window.len c) := by
  unfold Xacc.addOriginal
  by_cases hc : c = src.window.n - 1
  · rw [if_pos hc, Xacc.addDirect_value]
  · rw [if_neg hc, Xacc.add_value, Window.len, if_neg hc]
    rfl

/-- The selected cells of a lane are added to the value as the row opcode adds them to its buffer (R165, R215). -/
theorem Xacc.addSelected_value (x : Xacc) (depth : Nat) (src : Sources) (l : Fin 8) (op : BitVec 6) (first : Nat) :
    (x.addSelected depth src l op first).toOption.bind (Xacc.value src) =
      (x.value src).map (Machine.addSelected (src.lane.get l) op first src.window.s) := by
  refine foldlM_value (fun k _ y => ?_) x
  by_cases hk : op.getLsbD (first + k.val) = true
  · simp only [hk, if_true, Xacc.add_value, Option.map_eq_bind]
    rfl
  · simp only [hk, Bool.false_eq_true, if_false, toOption_ok, Option.bind_some, Option.map_id']

/-! ### Both accumulators -/

/-- What a batch stands for: the generator with the values of both accumulators. -/
def Batch.value (src : Sources) (b : Batch) : Option Overlay :=
  (b.xs.value src).bind fun s => (b.xp.value src).map fun p => { prng := b.prng, sum := s, prod := p }

/-- The values of both accumulators. -/
def Batch.sums (src : Sources) (b : Batch) : Option (Buf × Buf) := (b.value src).map fun o => (o.sum, o.prod)

/-- Operating on both accumulators gives both values; a stop of either is a stop of both, whichever comes first. -/
theorem Batch.value_of_parts (src : Sources) (g : Prng) (x y : Except Stop Xacc) :
    (x.bind fun a => y.map fun b => ({ prng := g, xs := a, xp := b } : Batch)).toOption.bind (Batch.value src) =
      (x.toOption.bind (Xacc.value src)).bind fun s =>
        (y.toOption.bind (Xacc.value src)).map fun p => { prng := g, sum := s, prod := p } := by
  simp only [toOption_bind, toOption_map, Option.map_eq_bind, Option.bind_assoc, Option.bind_some, Batch.value,
    Function.comp_def]
  refine congrArg x.toOption.bind (funext fun a => ?_)
  rw [Option.bind_comm]

/-- With nothing queued a batch stands for its two destinations. -/
theorem Batch.value_of_empty {b : Batch} (src : Sources) (hs : b.xs.queue = []) (hp : b.xp.queue = []) :
    b.value src = some { prng := b.prng, sum := b.xs.dest, prod := b.xp.dest } := by
  rw [Batch.value, Xacc.value_of_empty src hs, Xacc.value_of_empty src hp]
  rfl

/-! ### Step 2, the overlay -/

/-- Pair i of the overlay answers where both its originals can be read (R213). -/
theorem overlayPair_toOption (cfg : Config) (m : Memory) (w : Window) (i : Nat) (o : Overlay) :
    (overlayPair cfg m w i o).toOption =
      let e1 := o.prng.column cfg w.n o.prng.drawn
      let eRX := o.prng.column cfg w.n (o.prng.drawn + 1)
      let g := { o.prng with drawn := o.prng.drawn + 2 }
      (readOriginal m w e1).toOption.bind fun a => (readOriginal m w eRX).toOption.map fun b =>
        if i = 0 then { prng := g, sum := bufCopyZt a (w.len e1) w.s, prod := bufCopyZt b (w.len eRX) w.s }
        else { prng := g, sum := bufAdd o.sum a (w.len e1), prod := bufAdd o.prod b (w.len eRX) } := by
  unfold overlayPair Prng.column
  simp only [Prng.draw]
  cases readOriginal m w (columnOf (cfg.prng o.prng.row o.prng.count o.prng.drawn) w.n) with
  | error e => rfl
  | ok a => cases readOriginal m w (columnOf (cfg.prng o.prng.row o.prng.count (o.prng.drawn + 1)) w.n) <;> rfl

/-- The first pair is copied to both destinations, while nothing is queued (R165, R213). -/
theorem batchPair_zero_value (cfg : Config) (src : Sources) {b : Batch} (hs : b.xs.queue = []) (hp : b.xp.queue = []) :
    (batchPair cfg src 0 b).toOption.bind (Batch.value src) =
      (b.value src).bind fun o => (overlayPair cfg src.mem src.window 0 o).toOption := by
  have hcopy (g : Prng) (s p : Buf) :
      Batch.value src { prng := g, xs := { b.xs with dest := s }, xp := { b.xp with dest := p } } =
        some { prng := g, sum := s, prod := p } := Batch.value_of_empty src hs hp
  rw [Batch.value_of_empty src hs hp, Option.bind_some, overlayPair_toOption, batchPair]
  simp only [Prng.draw, if_true, toOption_bind, toOption_map, Option.map_eq_bind, Option.bind_assoc, Function.comp_def,
    Option.bind_some, hcopy]
  rfl

/-- Every later pair adds its originals to both values (R165, R213). -/
theorem batchPair_succ_value (cfg : Config) (src : Sources) (i : Nat) (b : Batch) :
    (batchPair cfg src (i + 1) b).toOption.bind (Batch.value src) =
      (b.value src).bind fun o => (overlayPair cfg src.mem src.window (i + 1) o).toOption := by
  unfold batchPair
  simp only [Prng.draw, Nat.succ_ne_zero, if_false, Batch.value_of_parts, Xacc.addOriginal_value, overlayPair_toOption,
    Batch.value, Option.map_eq_bind, Option.bind_assoc, Function.comp_def, Option.bind_some]
  refine congrArg (b.xs.value src).bind (funext fun s => ?_)
  rw [Option.bind_comm]
  rfl

/-- The pairs of step 2 through the accumulators make the overlay (R165, R213). -/
theorem batchPairs_value (cfg : Config) (src : Sources) {b : Batch} (hs : b.xs.queue = []) (hp : b.xp.queue = []) (n : Nat) :
    (batchPairs cfg src b n).toOption.bind (Batch.value src) =
      (overlayPairs cfg src.mem src.window { prng := b.prng, sum := b.xs.dest, prod := b.xp.dest } n).toOption := by
  induction n with
  | zero => exact Batch.value_of_empty src hs hp
  | succ n ih =>
    have hpair : ∀ a ∈ (batchPairs cfg src b n).toOption, (batchPair cfg src n a).toOption.bind (Batch.value src) =
        (a.value src).bind fun o => (overlayPair cfg src.mem src.window n o).toOption := by
      intro a ha
      cases n with
      | zero =>
        cases ha
        exact batchPair_zero_value cfg src hs hp
      | succ i => exact batchPair_succ_value cfg src i a
    rw [batchPairs, overlayPairs, toOption_bind, toOption_bind, ← ih, Option.bind_assoc, Option.bind_assoc]
    exact Option.bind_congr hpair

/-! ### Step 3, the mixing, and FINALIZE -/

/-- Step 3 through the accumulators mixes the lanes into both values (R165, R215). -/
theorem batchMix_sums (cfg : Config) (r : Word) (src : Sources) (b : Batch) :
    (batchMix cfg r src b).toOption.bind (Batch.sums src) = (b.sums src).map (mix cfg r src.lane src.window.s) := by
  refine foldlM_value (fun l _ a => ?_) b
  unfold Batch.sums
  rw [← Function.comp_def (Option.map _), ← Option.map_bind]
  simp only [Batch.value_of_parts, Xacc.addSelected_value, Batch.value, Option.map_eq_bind, Option.bind_assoc,
    Function.comp_def, Option.bind_some]
  rfl

/-- The accumulators after FINALIZE: their values stand in the destinations and nothing is queued (R164). -/
def finalized (acc : Buf × Buf) : Xacc × Xacc := ({ dest := acc.1, queue := [] }, { dest := acc.2, queue := [] })

/-- Both FINALIZEs leave the values in the destinations, and empty queues (R164). -/
theorem Batch.finalize_toOption (src : Sources) (b : Batch) :
    ((b.xs.finalize src).bind fun x => (b.xp.finalize src).map fun y => { b with xs := x, xp := y }).toOption =
      (b.sums src).map fun acc => { b with xs := (finalized acc).1, xp := (finalized acc).2 } := by
  simp only [toOption_bind, toOption_map, Xacc.finalize_toOption, Batch.sums, Batch.value, Option.map_eq_bind,
    Option.bind_assoc, Function.comp_def, Option.bind_some, finalized]

/-- Step 3 and both FINALIZEs leave the mix of the two values, and empty queues (R165). -/
theorem batchMix_finalize (cfg : Config) (r : Word) (src : Sources) (b : Batch) :
    (((batchMix cfg r src b).bind fun c =>
        (c.xs.finalize src).bind fun x => (c.xp.finalize src).map fun y => { c with xs := x, xp := y }).toOption.map
      fun e => (e.xs, e.xp)) = (b.sums src).map fun acc => finalized (mix cfg r src.lane src.window.s acc) := by
  rw [toOption_bind, ← Function.comp_def finalized, ← Option.map_map, ← batchMix_sums, Option.map_bind, Option.map_bind]
  simp only [Batch.finalize_toOption, Option.map_map, Function.comp_def]

/-- Steps 2 and 3 through the accumulators leave what the sequential steps leave, and empty queues (R166). -/
theorem batchRun_toOption (cfg : Config) (r : Word) (src : Sources) {b : Batch} (hs : b.xs.queue = []) (hp : b.xp.queue = []) :
    (batchRun cfg r src b).toOption.map (fun e => (e.xs, e.xp)) =
      (overlay cfg src.mem src.window { prng := b.prng, sum := b.xs.dest, prod := b.xp.dest }).toOption.map fun o =>
        finalized (mix cfg r src.lane src.window.s (o.sum, o.prod)) := by
  unfold batchRun overlay
  by_cases hspace : src.window.inAddressSpace = true
  · rw [if_pos hspace, if_pos hspace, ← batchPairs_value cfg src hs hp, toOption_bind, Option.map_bind, Option.map_bind]
    simp only [Function.comp_def, batchMix_finalize, Batch.sums, Option.map_map]
  · rw [if_neg hspace, if_neg hspace]
    rfl

/-- ENCODE's state after the blend, published with the destinations and the queues of both accumulators (R165, R217). -/
def State.publishXaccs (cfg : Config) (s : State) (b : Buffers) (x : Xacc × Xacc) : State :=
  let p := s.publish { b with sum := blend cfg s.argRow s.winS.toNat (x.1.dest, x.2.dest), prod := x.2.dest } s.argRow
  { p with engine := { p.engine with xs := x.1.queue, xp := x.2.queue } }

/-- Where the queues were empty before and are after, this is what the sequential ENCODE publishes. -/
theorem State.publishXaccs_finalized {s : State} (cfg : Config) (b : Buffers) (acc : Buf × Buf) (hs : s.engine.xs = [])
    (hp : s.engine.xp = []) :
    s.publishXaccs cfg b (finalized acc) =
      s.publish { b with sum := blend cfg s.argRow s.winS.toNat acc, prod := acc.2 } s.argRow := by
  simp only [State.publishXaccs, State.publish, finalized, hs, hp]

/-- ENCODE through the accumulators on a READY block: the batch, and then what it publishes (R165). -/
theorem encodeBatchedWith_of_some (cfg : Config) {s : State} {b : Buffers} (hb : s.bufs = some b) :
    encodeBatchedWith cfg s =
      continueWith
        (batchRun cfg s.argRow { mem := s.hmem, window := s.window b, lane := b.lane }
          { prng := Prng.seed s.argRow s.winN
            xs := { dest := b.sum, queue := s.engine.xs }
            xp := { dest := b.prod, queue := s.engine.xp } })
        fun e => .next (s.publishXaccs cfg b (e.xs, e.xp)) := by
  unfold encodeBatchedWith
  rw [hb]
  rfl

/-- From empty queues ENCODE through the accumulators answers where the sequential ENCODE does, and the same (R166). -/
theorem encodeBatchedWith_next_iff {cfg : Config} {s : State} (hs : s.engine.xs = []) (hp : s.engine.xp = []) (t : State) :
    encodeBatchedWith cfg s = .next t ↔ encodeWith cfg s = .next t := by
  cases hb : s.bufs with
  | none => simp only [encodeBatchedWith, hb, encodeWith_of_none cfg hb]
  | some b =>
    rw [encodeBatchedWith_of_some cfg hb, encodeWith_of_some cfg hb, continueWith_eq_next_iff, continueWith_eq_next_iff,
      ← Function.comp_def (s.publishXaccs cfg b), ← Option.map_map, batchRun_toOption cfg s.argRow _ hs hp, Option.map_map]
    simp only [Function.comp_def, State.publishXaccs_finalized cfg b _ hs hp]
    rfl

/-- Settles O37: the queues of a block between commands are empty. -/
theorem accumulatorsRefineSequential : Obligations.AccumulatorsRefineSequential := by
  intro cfg s t _ hi
  obtain ⟨-, -, hs, hp⟩ := hi.rest
  exact encodeBatchedWith_next_iff hs hp t

end Sys2Proof.Machine

/-! PROOFS. The statements about INIT (43_init.md): which parameters and tables it rejects, the capacity, the lane sums that
phase 5 leaves, and INIT as the same command on every block as on the released one. -/

namespace Sys2Proof.Machine

/-! ### Phase 1, by quotient and remainder -/

/-- `ceil(T / N)` of `T = q * N + r`, for a remainder r below N (R182, R183). -/
theorem ceilDiv_of_quotient {N q r : Nat} (hr : r < N) :
    (q * N + r + N - 1) / N = if r = 0 then q else q + 1 := by
  split
  · next h =>
    subst h
    exact Nat.div_eq_of_lt_le (by omega) (by rw [Nat.succ_mul]; omega)
  · next h =>
    exact Nat.div_eq_of_lt_le (by rw [Nat.succ_mul]; omega) (by rw [Nat.succ_mul, Nat.succ_mul]; omega)

/-- The bytes before the final column and one column more are N columns. -/
theorem pred_mul_add_self {N : Nat} (hN : 0 < N) (S : Nat) : (N - 1) * S + S = N * S := by
  rw [← Nat.succ_mul, Nat.succ_eq_add_one, Nat.sub_add_cancel hN]

/-- Phase 1 on `T = q * N + r`: the three cases of R183. -/
theorem setParameters_of_quotient {N q r : Nat} (hr : r < N) (hT : N ≤ q * N + r) :
    setParameters N (q * N + r) =
      if r = 0 then some (q, q) else if N ≤ q + r then some (q + 1, q + r + 1 - N) else none := by
  have hN : 0 < N := Nat.zero_lt_of_lt hr
  have hq : 0 < q := Nat.pos_of_ne_zero fun h => by simp [h] at hT; omega
  have hcomm : N * q = q * N := Nat.mul_comm N q
  unfold setParameters
  rw [if_neg hN.ne', if_neg (Nat.not_lt.mpr hT)]
  simp only [ceilDiv_of_quotient hr]
  by_cases h0 : r = 0
  · have hsum := pred_mul_add_self hN q
    simp only [h0, if_true]
    rw [if_neg (by omega), Option.some.injEq, Prod.mk.injEq]
    exact ⟨rfl, by omega⟩
  · have hsum := pred_mul_add_self hN (q + 1)
    rw [Nat.mul_succ N q] at hsum
    simp only [h0, if_false]
    by_cases hlong : N ≤ q + r
    · rw [if_neg (by omega), if_pos hlong, Option.some.injEq, Prod.mk.injEq]
      exact ⟨rfl, by omega⟩
    · rw [if_pos (by omega), if_neg hlong]

/-- Settles O17: the three cases of phase 1, and an F below 1 as the third check of `ParametersValid` failing. -/
theorem parametersByQuotient : Obligations.ParametersByQuotient := by
  refine ⟨fun N q r => setParameters_of_quotient, fun s hn ht hF => initWith_of_not_valid config ?_⟩
  rintro ⟨-, -, hlt⟩
  zify [hn] at hlt
  omega

/-- Settles O18: phase 1 looks at the operands alone. -/
theorem initRejectsParameters : Obligations.InitRejectsParameters := fun s m h =>
  ⟨initWith_of_not_valid config h, initWith_of_not_valid config (s := { s with hmem := m }) h⟩

/-! ### Phase 2, at the first null entry -/

/-- The scan ends at the first null entry (R184). -/
theorem scanPointers_of_null {m : Memory} {tab c N : Nat} (hc : c < N) (hgood : ∀ d, d < c → EntryGood m tab d)
    (hread : entryReadable m tab c = true) (hnull : entryValue m tab c = 0) : scanPointers m tab 0 N = .ok none := by
  obtain ⟨n, rfl⟩ := Nat.exists_eq_add_of_lt hc
  have hscan := scanPointers_add (c := 0) (k := c) (n + 1) fun d hd => by rw [Nat.zero_add]; exact hgood d hd
  rw [Nat.add_assoc, hscan, Nat.zero_add, scanPointers_succ hread, if_pos hnull]
  rfl

/-- Settles O19: phase 2 answers that an entry is null, and the capacity is checked after it. -/
theorem initRejectsNullPointer : Obligations.InitRejectsNullPointer := by
  intro s c h hspace hc hgood hread hnull
  refine initWith_of_table_null config h ?_
  rw [setEncoderInput_of_space _ hspace]
  exact scanPointers_of_null hc hgood hread hnull

/-! ### Phase 5, the lane sums -/

/-- An original multiplied into a sum adds the multiple of its zero-extended view (R65, R125, R189). -/
theorem muladd_original {m : Memory} {w : Window} {c : Nat} {bs : List Byte} {dst : Buf} (x : Byte)
    (h : readOriginal m w c = .ok bs) :
    ∀ i, i < w.s → (bufMuladd dst x bs (w.len c))[i]? = dst[i]?.map (· ^^^ gfMul x (origByteD m w c i)) := by
  obtain ⟨hl, hb⟩ := readOriginal_ok h
  intro i hi
  rw [bufMuladd_getElem?]
  by_cases hc : i < w.len c
  · rw [if_pos ⟨hc, by omega⟩, hb i hc]; rfl
  · rw [if_neg fun h => hc h.1, origByteD, origByte, if_neg hc, if_pos hi, Option.getD_some, gfMul_zero_right]
    cases dst[i]? <;> simp

/-- Column c's part in byte i of `LANE[l][k]`: 0 where it is not of lane l (R27). -/
def columnByte (cfg : Config) (m : Memory) (w : Window) (l : Fin 8) (k : Fin 3) (i c : Nat) : Byte :=
  if c % 8 = l.val then gfMul (gfPow (cfg.cx c) k.val) (origByteD m w c i) else 0

/-- One column adds its part to every cell (R188). -/
theorem addColumn_getElem? {m : Memory} {w : Window} {c i : Nat} {bs : List Byte} (cfg : Config) (t : LaneTable) (l : Fin 8)
    (k : Fin 3) (h : readOriginal m w c = .ok bs) (hi : i < w.s) :
    (laneCell (addColumn cfg t c bs (w.len c)) l k)[i]? = (laneCell t l k)[i]?.map (· ^^^ columnByte cfg m w l k i c) := by
  have hlane : l = laneOf c ↔ c % 8 = l.val := Fin.ext_iff.trans eq_comm
  rw [addColumn_cell, columnByte]
  by_cases hl : c % 8 = l.val
  · rw [if_pos (hlane.mpr hl), if_pos hl, muladd_original _ h i hi]
  · rw [if_neg (hlane.not.mpr hl), if_neg hl]
    cases (laneCell t l k)[i]? <;> simp

/-- What the columns below n leave in every cell (R188). -/
theorem addColumns_getElem? {cfg : Config} {m : Memory} {w : Window} {n i : Nat} {t : LaneTable} (l : Fin 8) (k : Fin 3)
    (h : addColumns cfg m w n = .ok t) (hi : i < w.s) :
    (laneCell t l k)[i]? = some (xorAll ((List.range n).map (columnByte cfg m w l k i))) := by
  induction n generalizing t with
  | zero =>
    cases h
    rw [laneCell_zeroLanes, zeroBuf, List.getElem?_replicate, if_pos hi]
    rfl
  | succ n ih =>
    rw [addColumns] at h
    split at h
    · cases h
    · next u hu =>
      cases hr : readOriginal m w n with
      | error e => rw [hr] at h; cases h
      | ok bs =>
        rw [hr] at h
        cases h
        rw [addColumn_getElem? cfg u l k hr hi, ih hu, List.range_succ, List.map_append, xorAll_append, List.map_cons,
          List.map_nil, xorAll_singleton, Option.map_some]

/-- Columns of other lanes add nothing, so that the sum of R27 may leave them out. -/
theorem xorAll_map_ite {α : Type} (p : α → Prop) [DecidablePred p] (f : α → Byte) (l : List α) :
    xorAll (l.map fun a => if p a then f a else 0) = xorAll ((l.filter (p ·)).map f) := by
  induction l with
  | nil => rfl
  | cons a l ih =>
    rw [List.map_cons, xorAll_cons, ih]
    by_cases ha : p a
    · simp [ha]
    · simp [ha]

/-- The lane table that phase 5 leaves is the one of R27 (R191). -/
theorem lanesCurrent_of_addColumns {cfg : Config} {m : Memory} {w : Window} {t : LaneTable}
    (h : addColumns cfg m w w.n = .ok t) : LanesCurrent cfg m w t := by
  intro l k i hi
  rw [addColumns_getElem? l k h hi, laneSumByte]
  exact congrArg some (xorAll_map_ite ..)

/-- Phase 5 answers where the originals can be read (R188). -/
theorem addColumns_of_readable (cfg : Config) {m : Memory} {w : Window} {n : Nat}
    (h : ∀ c, c < n → ∃ bs, readOriginal m w c = .ok bs) : ∃ t, addColumns cfg m w n = .ok t := by
  induction n with
  | zero => exact ⟨_, rfl⟩
  | succ n ih =>
    obtain ⟨t, ht⟩ := ih fun c hc => h c (by omega)
    obtain ⟨bs, hbs⟩ := h n (Nat.lt_succ_self n)
    exact ⟨_, by rw [addColumns, ht, hbs]; rfl⟩

/-! ### INIT completes -/

@[simp] theorem State.initWindow_ptr_length (s : State) : s.initWindow.ptr.length = s.operandN := by simp [State.initWindow]

/-- Originals that the host has laid out lie in the address space (R72). -/
theorem State.OriginalsValid.inAddressSpace {s : State} (h : s.OriginalsValid) : s.initWindow.inAddressSpace = true := by
  refine List.all_eq_true.mpr fun c hc => decide_eq_true ?_
  have hc : c < s.operandN := List.mem_range.mp hc
  obtain ⟨p, hp, hpv⟩ := s.initWindow_ptr hc
  rw [List.getD_eq_getElem?_getD, hp, Option.getD_some, hpv]
  exact (h c hc).1

/-- Phases 4 and 5 answer on originals that the host has laid out (R187, R188). -/
theorem State.OriginalsValid.buildLaneSums (cfg : Config) {s : State} (h : s.OriginalsValid) :
    ∃ lane, Machine.buildLaneSums cfg s.hmem s.initWindow = .ok lane := by
  rw [Machine.buildLaneSums, if_pos h.inAddressSpace]
  refine addColumns_of_readable cfg fun c hc => ?_
  exact readOriginal_of_readable (hc.trans_eq s.initWindow_ptr_length.symm) (h c hc).2

/-- INIT commits the Window with its lane sums where every check passes (R180, R186, R190). -/
theorem initWith_commits {cfg : Config} {s : State} (h : s.ParametersValid) (ht : s.TableValid)
    (hfits : s.operandN ≤ cfg.nmax ∧ s.initS ≤ cfg.smax) (ho : s.OriginalsValid) :
    ∃ lane, buildLaneSums cfg s.hmem s.initWindow = .ok lane ∧
      initWith cfg s = .next (s.release.commit s.initWindow lane) := by
  obtain ⟨lane, hlane⟩ := ho.buildLaneSums cfg
  refine ⟨lane, hlane, ?_⟩
  rw [initWith_of_table cfg h ht, if_pos hfits, hlane, continueWith_ok]

/-- WIN_N takes ARG_N as it stands (R190). -/
theorem State.ofNat_operandN (s : State) : BitVec.ofNat 32 s.operandN = s.argN := by
  simp [State.operandN]

/-- Settles O16: INIT commits, and the lane table it commits is what phase 5 leaves. -/
theorem initCompletes : Obligations.InitCompletes := by
  intro s h ht hn hs ho
  obtain ⟨lane, hlane, hinit⟩ := initWith_commits h ht ⟨hn, hs⟩ ho
  obtain ⟨-, hcols⟩ := buildLaneSums_ok hlane
  obtain ⟨-, hF, hFS⟩ := setParameters_bounds h.setParameters
  have hsmax := config_legal.smax_le
  have hword {n : Nat} (hle : n ≤ s.initS) : (BitVec.ofNat 32 n).toNat = n := Nat.mod_eq_of_lt (by omega)
  refine ⟨lane, freeBytes s.freeIx s.initS, freeBytes (s.freeIx + s.initS) s.initS, s.freeIx + 2 * s.initS, ?_,
    hword le_rfl, hword hFS, hF, hFS, freeBytes_length .., freeBytes_length .., (addColumns_ok hcols).1,
    lanesCurrent_of_addColumns hcols⟩
  rw [exec_init, hinit, State.commit, show BitVec.ofNat 32 s.initWindow.n = s.argN from s.ofNat_operandN]
  rfl

/-- Settles O20: past phase 2 the capacity alone decides between OutOfMemory and the commit. -/
theorem initCapacity : Obligations.InitCapacity := by
  intro s h ht
  refine ⟨fun hfits => (initWith_of_table config h ht).trans (if_neg hfits), fun hfits ho => ?_⟩
  obtain ⟨lane, -, hinit⟩ := initWith_commits h ht hfits ho
  exact ⟨_, hinit, rfl, rfl⟩

/-! ### INIT on any block -/

/-- INIT releases first and writes RESULT last, so that a released block with any result is as good as the block (R181). -/
theorem initWith_failed (cfg : Config) (s : State) (r : Result) : initWith cfg (s.failed r) = initWith cfg s := rfl

/-- An INIT that answers without success leaves the released block with its result (R265). -/
theorem initWith_next_of_ne_success {cfg : Config} {s t : State} (h : initWith cfg s = .next t) (hr : t.result ≠ .success) :
    t = s.failed t.result := by
  obtain rfl | rfl | ⟨S, F, ptr, lane, -, -, -, -, rfl⟩ := initWith_next h
  · rfl
  · rfl
  · exact absurd (State.commit_result ..) hr

/-- Settles O22: FREE leaves a released block, which INIT answers as it answers the block, and which is not READY. -/
theorem initIsFreeThenInit : Obligations.InitIsFreeThenInit := by
  rintro s t ⟨⟩
  refine ⟨initWith_failed config s .success, fun u hu hr => ?_⟩
  have hu' : u = s.failed u.result := initWith_next_of_ne_success hu hr
  have hbufs : u.bufs = none := by rw [hu']; rfl
  exact ⟨hu', encodeWith_of_none config hbufs⟩

end Sys2Proof.Machine

/-! PROOFS. The statements about ENCODE (44_encode.md). What ENCODE publishes is read off its steps byte by byte, as the closed
form of R218. Where the lane table is current, that form is a combination of the originals whose coefficients depend on the row
and N alone, and the laws of the code follow from the linearity of `gfMul`. -/

namespace Sys2Proof.Machine

/-! ### XOR sums -/

theorem xorAll_map_zero {α : Type} (l : List α) : xorAll (l.map fun _ => 0) = 0 := by
  induction l with
  | nil => rfl
  | cons a l ih => simpa using ih

theorem xorAll_map_xor {α : Type} (f g : α → Byte) (l : List α) :
    xorAll (l.map fun a => f a ^^^ g a) = xorAll (l.map f) ^^^ xorAll (l.map g) := by
  induction l with
  | nil => simp
  | cons a l ih =>
    simp only [List.map_cons, xorAll_cons, ih]
    ac_rfl

/-- A double sum may be taken in either order. -/
theorem xorAll_map_comm {α β : Type} (f : α → β → Byte) (l : List α) (m : List β) :
    xorAll (l.map fun a => xorAll (m.map (f a))) = xorAll (m.map fun b => xorAll (l.map fun a => f a b)) := by
  induction l with
  | nil => exact (xorAll_map_zero m).symm
  | cons a l ih => simp only [List.map_cons, xorAll_cons, ih, xorAll_map_xor]

/-- A condition that does not depend on the summand may stand outside the sum. -/
theorem xorAll_map_guard {α : Type} (p : Prop) [Decidable p] (f : α → Byte) (l : List α) :
    xorAll (l.map fun a => if p then f a else 0) = if p then xorAll (l.map f) else 0 := by
  by_cases h : p
  · simp only [h, if_true]
  · simp only [h, if_false, xorAll_map_zero]

/-- A sum over distinct indices that keeps one of them is its summand. -/
theorem xorAll_map_single {α : Type} [DecidableEq α] {l : List α} {a : α} (hl : l.Nodup) (ha : a ∈ l) (f : α → Byte) :
    xorAll (l.map fun b => if b = a then f b else 0) = f a := by
  rw [xorAll_map_ite, List.filter_eq, List.count_eq_one_of_mem hl ha, List.replicate_one, List.map_singleton, xorAll_singleton]

/-- Equal summands cancel in pairs. -/
theorem xorAll_map_ite_const {α : Type} (p : α → Prop) [DecidablePred p] (x : Byte) (l : List α) :
    xorAll (l.map fun a => if p a then x else 0) = if l.countP (p ·) % 2 = 1 then x else 0 := by
  induction l with
  | nil => rfl
  | cons a l ih =>
    rw [List.map_cons, xorAll_cons, ih, List.countP_cons]
    by_cases ha : p a
    · rcases Nat.mod_two_eq_zero_or_one (l.countP (p ·)) with hc | hc <;> simp [ha, hc, Nat.add_mod]
    · simp [ha]

theorem gfMul_xorAll {α : Type} (c : Byte) (f : α → Byte) (l : List α) :
    gfMul c (xorAll (l.map f)) = xorAll (l.map fun a => gfMul c (f a)) := by
  induction l with
  | nil => exact gfMul_zero_right c
  | cons a l ih => simp only [List.map_cons, xorAll_cons, gfMul_xor_right, ih]

theorem gfMul_ite_zero (p : Prop) [Decidable p] (a x : Byte) :
    gfMul (if p then a else 0) x = if p then gfMul a x else 0 := by
  rw [apply_ite (gfMul · x), gfMul_zero_left]

/-! ### The closed form as a combination of the originals -/

/-- Byte i of the combination of the originals with the coefficients `coef(r, c)` (R218). -/
def combinationByte (cfg : Config) (m : Memory) (w : Window) (r n : Word) (i : Nat) : Byte :=
  xorAll ((List.range n.toNat).map fun c => gfMul (coef cfg r n c) (origByteD m w c i))

/-- The overlay adds each original as often as it is drawn, and pairs of additions cancel (R213, R218). -/
theorem overlayByte_eq_oddDraws {cfg : Config} {m : Memory} {w : Window} {r n : Word} (hn : w.n = n.toNat) (h0 : 0 < n.toNat)
    (side i : Nat) :
    overlayByte cfg m w r n side i =
      xorAll ((List.range n.toNat).map fun c => gfMul (oddDraws cfg r n side c) (origByteD m w c i)) := by
  have hdrawn (j : Nat) : origByteD m w (drawnColumn cfg r n (2 * j + side)) i =
      xorAll ((List.range n.toNat).map fun c =>
        if c = drawnColumn cfg r n (2 * j + side) then origByteD m w c i else 0) :=
    (xorAll_map_single List.nodup_range (List.mem_range.mpr (Nat.mod_lt _ h0)) fun c => origByteD m w c i).symm
  have hcolumn (c : Nat) :
      xorAll ((List.range (pairCount n.toNat)).map fun j =>
        if c = drawnColumn cfg r n (2 * j + side) then origByteD m w c i else 0) =
      gfMul (oddDraws cfg r n side c) (origByteD m w c i) := by
    rw [xorAll_map_ite_const, oddDraws, gfMul_ite_zero, gfMul_one_left]
    simp only [eq_comm]
  rw [overlayByte, hn]
  simp only [hdrawn]
  rw [xorAll_map_comm]
  simp only [hcolumn]

/-- The parts of column c in the cells that a row opcode selects in its lane make up one multiple of the original (R218). -/
theorem xorAll_selected_columnBytes (cfg : Config) (m : Memory) (w : Window) (l : Fin 8) (op : BitVec 6) (first i c : Nat) :
    xorAll ((List.finRange 3).map fun (k : Fin 3) =>
      if op.getLsbD (first + k.val) then columnByte cfg m w l k i c else 0) =
    if c % 8 = l.val then gfMul (opcodePoly op first (cfg.cx c)) (origByteD m w c i) else 0 := by
  have hcells : List.finRange 3 = [0, 1, 2] := rfl
  have hpow0 : gfPow (cfg.cx c) 0 = 1 := rfl
  have hpow1 : gfPow (cfg.cx c) 1 = cfg.cx c := gfMul_one_right _
  have hpow2 : gfPow (cfg.cx c) 2 = gfSqr (cfg.cx c) := by rw [gfPow, hpow1, gfSqr]
  by_cases hl : c % 8 = l.val
  · rw [if_pos hl, opcodePoly, gfMul_xor_left, gfMul_xor_left, gfMul_ite_zero, gfMul_ite_zero, gfMul_ite_zero]
    simp [hcells, columnByte, hl, hpow0, hpow1, hpow2, BitVec.xor_assoc]
  · simp [hcells, columnByte, hl]

/-- With current lane sums, the cells that a row opcode selects add up to multiples of the originals of the lane (R27, R218). -/
theorem LanesCurrent.selectedByte {cfg : Config} {m : Memory} {w : Window} {t : LaneTable} (h : LanesCurrent cfg m w t)
    (l : Fin 8) (op : BitVec 6) (first : Nat) {i : Nat} (hi : i < w.s) :
    selectedByte (t.get l) op first i =
      xorAll ((List.range w.n).map fun c =>
        if c % 8 = l.val then gfMul (opcodePoly op first (cfg.cx c)) (origByteD m w c i) else 0) := by
  have hcell (k : Fin 3) : ((t.get l).get k)[i]?.getD 0 = xorAll ((List.range w.n).map (columnByte cfg m w l k i)) := by
    have hlane : ((t.get l).get k)[i]? = some (laneSumByte cfg m w l k i) := h l k i hi
    rw [hlane, Option.getD_some, laneSumByte]
    exact (xorAll_map_ite ..).symm
  simp only [Machine.selectedByte, hcell, ← xorAll_map_guard]
  rw [xorAll_map_comm]
  simp only [xorAll_selected_columnBytes]

/-- With current lane sums, step 3 adds a multiple of each original, by the opcode of its lane (R215, R218). -/
theorem LanesCurrent.mixByte {cfg : Config} {m : Memory} {w : Window} {t : LaneTable} (h : LanesCurrent cfg m w t)
    (r : Word) (first : Nat) {i : Nat} (hi : i < w.s) :
    mixByte cfg r t first i =
      xorAll ((List.range w.n).map fun c =>
        gfMul (opcodePoly (cfg.rowOp (laneOf c) r) first (cfg.cx c)) (origByteD m w c i)) := by
  have hlane (c : Nat) (l : Fin 8) : c % 8 = l.val ↔ l = laneOf c := eq_comm.trans (Fin.ext_iff (b := laneOf c)).symm
  have hown (c : Nat) :
      xorAll ((List.finRange 8).map fun l =>
        if l = laneOf c then gfMul (opcodePoly (cfg.rowOp l r) first (cfg.cx c)) (origByteD m w c i) else 0) =
      gfMul (opcodePoly (cfg.rowOp (laneOf c) r) first (cfg.cx c)) (origByteD m w c i) :=
    xorAll_map_single (List.nodup_finRange 8) (List.mem_finRange _) _
  simp only [Machine.mixByte, h.selectedByte _ _ first hi]
  rw [xorAll_map_comm]
  simp only [hlane, hown]

/-- With current lane sums the closed form of R218 is the combination of the originals with the coefficients `coef(r, c)`. -/
theorem LanesCurrent.symbolByte {cfg : Config} {m : Memory} {w : Window} {t : LaneTable} (h : LanesCurrent cfg m w t)
    (r : Word) {n : Word} (hn : w.n = n.toNat) (h0 : 0 < n.toNat) {i : Nat} (hi : i < w.s) :
    symbolByte cfg m w t r n i = combinationByte cfg m w r n i := by
  simp only [Machine.symbolByte, productByte, overlayByte_eq_oddDraws hn h0, h.mixByte r _ hi, combinationByte, coef, hn,
    ← xorAll_map_xor, gfMul_xorAll, gfMul_xor_left, gfMul_xor_right, gfMul_assoc]

/-! ### What ENCODE answers on a READY block -/

/-- The overlay of a Window with at least one original starts with a copy, so that at least one pair is drawn (R213). -/
theorem pairCount_eq_succ {N : Nat} (h : 1 ≤ N) : pairCount N = pairCount N - 1 + 1 := by
  unfold pairCount pairAddRate
  omega

/-- What step 2 leaves in SUM and PROD (R213, R218). -/
theorem overlay_getElem? {cfg : Config} {m : Memory} {w : Window} {r n : Word} {sum prod : Buf} {p : Overlay}
    (hn : w.n = n.toNat) (h0 : 1 ≤ w.n) (hf : w.f ≤ w.s)
    (h : overlay cfg m w { prng := Prng.seed r n, sum := sum, prod := prod } = .ok p) :
    ∀ i, i < w.s →
      p.sum[i]? = some (overlayByte cfg m w r n 0 i) ∧ p.prod[i]? = some (overlayByte cfg m w r n 1 i) := by
  unfold overlay at h
  split at h
  · rw [pairCount_eq_succ h0] at h
    obtain ⟨-, -, hbytes⟩ := overlayPairs_getElem? hf rfl h
    simpa only [overlayByte, drawnColumn, hn, ← pairCount_eq_succ (hn ▸ h0), Prng.seed, Nat.add_zero] using hbytes
  · cases h

/-- ENCODE that answers on a READY block publishes SUM and PROD of S bytes each, the bytes of the closed form of R218. -/
theorem encodeWith_publishes {cfg : Config} {s t : State} {b : Buffers} (hok : s.BuffersOk cfg b) (hb : s.bufs = some b)
    (h : encodeWith cfg s = .next t) :
    ∃ sum prod : Buf,
      t = s.publish { b with sum := sum, prod := prod } s.argRow ∧
      sum.length = s.winS.toNat ∧ prod.length = s.winS.toNat ∧
      ∀ i, i < s.winS.toNat →
        sum[i]? = some (symbolByte cfg s.hmem (s.window b) b.lane s.argRow s.winN i) ∧
        prod[i]? = some (productByte cfg s.hmem (s.window b) b.lane s.argRow s.winN i) := by
  rw [encodeWith_of_some cfg hb] at h
  obtain ⟨o, ho, ⟨⟩⟩ := continueWith_next h
  obtain ⟨hsum, hprod⟩ := overlay_length (w := s.window b) hok.n_pos hok.f_le rfl ho
  have hover := overlay_getElem? (w := s.window b) rfl hok.n_pos hok.f_le ho
  obtain ⟨hmix1, hmix2⟩ := mix_length cfg s.argRow b.lane s.winS.toNat (o.sum, o.prod)
  refine ⟨_, _, rfl, (blend_length ..).trans (hmix1.trans hsum), hmix2.trans hprod, fun i hi => ?_⟩
  obtain ⟨hsumi, hprodi⟩ := hover i hi
  obtain ⟨hmixs, hmixp⟩ := mix_getElem? cfg s.argRow (o.sum, o.prod) hok.cell_length hi
  rw [hsumi, Option.map_some] at hmixs
  rw [hprodi, Option.map_some] at hmixp
  generalize mix cfg s.argRow b.lane s.winS.toNat (o.sum, o.prod) = acc at hmix2 hmixs hmixp ⊢
  refine ⟨(blend_getElem? (sum := acc.1) cfg s.argRow (hmix2.trans hprod) hi).trans ?_, hmixp⟩
  rw [hmixs, hmixp, Option.map_some, Option.getD_some]
  rfl

/-- ENCODE answers where every drawn original can be read (R210, R312). -/
theorem encodeWith_of_drawnReadable {cfg : Config} {s : State} {b : Buffers} (hok : s.BuffersOk cfg b) (hb : s.bufs = some b)
    (hread : s.DrawnReadable cfg b) : ∃ t, encodeWith cfg s = .next t := by
  have hptr (c : Nat) (hc : c < (s.window b).n) : c < (s.window b).ptr.length := hok.ptr_length.symm ▸ hc
  obtain ⟨o, ho⟩ := overlayPairs_of_readable (cfg := cfg)
    (o := { prng := Prng.seed s.argRow s.winN, sum := b.sum, prod := b.prod }) rfl hptr hok.n_pos (pairCount (s.window b).n) hread
  rw [encodeWith_of_some cfg hb, overlay, if_pos hok.regions, ho]
  exact ⟨_, rfl⟩

/-- On an engine at rest publishing changes the buffers, the SYM registers and STATUS alone (R217, R219). -/
theorem State.publish_of_rest {s : State} (hprng : s.engine.prng = none) (hlane : s.engine.lane = 0) (b : Buffers) (r : Word) :
    s.publish b r =
      { s with
        result := .success
        symValid := true
        symRow := r
        symBytes := s.winS
        symPtr := 0x1000#32
        bufs := some b } := by
  simp only [State.publish, ← hprng, ← hlane, apertureBase]

/-- Settles O25: ENCODE answers, and its steps leave the bytes of the closed form. -/
theorem encodeCompletes : Obligations.EncodeCompletes := by
  intro s b hi hb hread
  have hok := hi.buffers b hb
  obtain ⟨hprng, hlane, -, -⟩ := hi.rest
  obtain ⟨t, ht⟩ := encodeWith_of_drawnReadable hok hb hread
  obtain ⟨sum, prod, rfl, hsum, hprod, hbytes⟩ := encodeWith_publishes hok hb ht
  exact ⟨sum, prod, ht.trans (congrArg _ (State.publish_of_rest hprng hlane _ _)), hsum, hprod, hbytes⟩

/-- Settles O26. -/
theorem encodeNotReady : Obligations.EncodeNotReady := by
  intro s hr
  have hb : s.bufs = none := by simpa [State.ready] using hr
  exact encodeWith_of_none config hb

/-- Settles O27: the bytes that ENCODE publishes, and their closed form as a combination of the originals. -/
theorem symbolClosedForm : Obligations.SymbolClosedForm := by
  intro s b hi hb hread
  have hok := hi.buffers b hb
  obtain ⟨t, ht⟩ := encodeWith_of_drawnReadable hok hb hread
  obtain ⟨sum, prod, rfl, -, -, hbytes⟩ := encodeWith_publishes hok hb ht
  refine ⟨_, _, ht, rfl, fun i hi => (hbytes i hi).1, fun hcur i hi => ?_⟩
  exact (hbytes i hi).1.trans (congrArg some (hcur.symbolByte s.argRow rfl hok.n_pos hi))

/-! ### Encoding again -/

/-- The first pair overwrites SUM and PROD, so that what they held before does not enter the overlay (R213). -/
theorem overlay_start (cfg : Config) (m : Memory) {w : Window} (hn : 1 ≤ w.n) (g : Prng) (sum sum' prod prod' : Buf) :
    overlay cfg m w { prng := g, sum := sum, prod := prod } = overlay cfg m w { prng := g, sum := sum', prod := prod' } := by
  have hpairs (n : Nat) : overlayPairs cfg m w { prng := g, sum := sum, prod := prod } (n + 1) =
      overlayPairs cfg m w { prng := g, sum := sum', prod := prod' } (n + 1) := by
    induction n with
    | zero => rfl
    | succ n ih => rw [overlayPairs, ih, ← overlayPairs]
  rw [overlay, overlay, pairCount_eq_succ hn, hpairs]

/-- What ENCODE overwrites does not enter what it answers (R220). -/
theorem encodeWith_overwritten {cfg : Config} {s : State} {b : Buffers} (hn : 1 ≤ s.winN.toNat) (hb : s.bufs = some b)
    (sum prod : Buf) (row bytes ptr : Word) (v : Bool) (r : Result) :
    encodeWith cfg
      { s with
        bufs := some { b with sum := sum, prod := prod }
        symRow := row
        symBytes := bytes
        symPtr := ptr
        symValid := v
        result := r } = encodeWith cfg s := by
  rw [encodeWith_of_some cfg hb, overlay_start cfg s.hmem hn _ b.sum sum b.prod prod]
  rfl

/-- Settles O28: the state after an ENCODE differs from the state before in what ENCODE overwrites. -/
theorem encodeDeterministic : Obligations.EncodeDeterministic := by
  refine ⟨fun s t hi h => ?_, fun s b sum prod row bytes ptr v r hi hb =>
    encodeWith_overwritten (hi.buffers b hb).n_pos hb sum prod row bytes ptr v r⟩
  cases hb : s.bufs with
  | none =>
    cases (encodeWith_of_none config hb).symm.trans h
    exact encodeWith_of_none config hb
  | some b =>
    have hok := hi.buffers b hb
    obtain ⟨hprng, hlane, -, -⟩ := hi.rest
    obtain ⟨sum, prod, rfl, -⟩ := encodeWith_publishes hok hb h
    rw [State.publish_of_rest hprng hlane] at h ⊢
    exact (encodeWith_overwritten hok.n_pos hb ..).trans h

/-! ### INIT, then ENCODE -/

/-- INIT that leaves a READY block has passed every check and commits its Window (R180, R190). -/
theorem initWith_ready {cfg : Config} {s t : State} (h : initWith cfg s = .next t) (hr : t.ready = true) :
    s.ParametersValid ∧ (s.operandN ≤ cfg.nmax ∧ s.initS ≤ cfg.smax) ∧ (∀ p ∈ s.initWindow.ptr, p ≠ 0) ∧
      ∃ lane, buildLaneSums cfg s.hmem s.initWindow = .ok lane ∧ t = s.release.commit s.initWindow lane := by
  obtain rfl | rfl | ⟨S, F, ptr, lane, hp, he, hfit, hl, rfl⟩ := initWith_next h
  · cases hr
  · cases hr
  · obtain ⟨hnmax, hsmax⟩ : s.operandN ≤ cfg.nmax ∧ S ≤ cfg.smax := by simpa [fits] using hfit
    obtain ⟨hn, ht, rfl, hlt, rfl⟩ := (setParameters_eq_some_iff ..).mp hp
    have hptr : s.initWindow.ptr = ptr :=
      Option.some.inj (Except.ok.inj ((State.TableValid.of_setEncoderInput he).setEncoderInput.symm.trans he))
    subst hptr
    exact ⟨⟨hn, ht, hlt⟩, ⟨hnmax, hsmax⟩, (setEncoderInput_ok he).2, lane, hl, rfl⟩

/-- A READY block that INIT leaves has its buffers in order, holds the Window of INIT's operands, and its lane table is current
(R25 to R28, R191). -/
theorem initWith_buffersOk {cfg : Config} (hcfg : cfg.Legal) {s t : State} (h : initWith cfg s = .next t)
    (hr : t.ready = true) :
    ∃ b, t.bufs = some b ∧ t.BuffersOk cfg b ∧ t.window b = s.initWindow ∧ t.winN = s.argN ∧ t.hmem = s.hmem ∧
      t.argRow = s.argRow ∧ LanesCurrent cfg s.hmem s.initWindow b.lane := by
  obtain ⟨hv, ⟨hn, hs⟩, hnz, lane, hl, rfl⟩ := initWith_ready h hr
  obtain ⟨hN, hF, hFS⟩ := setParameters_bounds hv.setParameters
  have hnmax := hcfg.nmax_le
  have hsmax := hcfg.smax_le
  have hw : s.initWindow.Committable cfg := ⟨hN, hn, hs, hF, hFS, s.initWindow_ptr_length, hnz⟩
  have hwn : s.initWindow.n ≤ cfg.nmax := hn
  have hws : s.initWindow.s ≤ cfg.smax := hs
  have hwf : s.initWindow.f ≤ s.initWindow.s := hFS
  exact ⟨_, rfl, State.commit_buffersOk hcfg hw hl rfl, State.window_commit (by omega) (by omega) (by omega) rfl,
    s.ofNat_operandN, rfl, rfl, lanesCurrent_of_addColumns (buildLaneSums_ok hl).2⟩

/-- The S bytes that INIT and then ENCODE of the row in ARG_ROW publish: the combination of the originals (R218). -/
def State.symbol (cfg : Config) (s : State) : Buf :=
  (List.range s.initS).map (combinationByte cfg s.hmem s.initWindow s.argRow s.argN)

/-- After INIT, an ENCODE that answers publishes the combination of the originals (R218). -/
theorem encodeWith_after_init {cfg : Config} (hcfg : cfg.Legal) {s t u : State} (hi : initWith cfg s = .next t)
    (hr : t.ready = true) (he : encodeWith cfg t = .next u) : ∃ b, u.bufs = some b ∧ b.sum = s.symbol cfg := by
  obtain ⟨b, hb, hok, hw, hn, hm, hrow, hcur⟩ := initWith_buffersOk hcfg hi hr
  obtain ⟨sum, prod, rfl, hsum, -, hbytes⟩ := encodeWith_publishes hok hb he
  have hS : t.winS.toNat = s.initS := congrArg Window.s hw
  have hpos : 0 < s.argN.toNat := hn ▸ hok.n_pos
  rw [hw, hm, hn, hrow, hS] at hbytes
  refine ⟨_, rfl, List.ext_getElem? fun i => ?_⟩
  rw [State.symbol, List.getElem?_map]
  by_cases hlt : i < s.initS
  · rw [(hbytes i hlt).1, hcur.symbolByte s.argRow rfl hpos hlt, List.getElem?_range hlt, Option.map_some]
  · have hout : s.initS ≤ i := Nat.not_lt.mp hlt
    rw [List.getElem?_eq_none (hsum.trans_le (hS.trans_le hout)), List.getElem?_eq_none (by simpa using hout), Option.map_none]

/-- Blocks given equal N and total_bytes have equal columns (R182). -/
theorem State.argN_initS_congr {s s' : State} (hn : s.operandN = s'.operandN) (ht : s.operandBytes = s'.operandBytes) :
    s.argN = s'.argN ∧ s.initS = s'.initS :=
  ⟨BitVec.toNat_inj.mp hn, by rw [State.initS, State.initS, hn, ht]⟩

/-- Settles O29: the coefficients depend on the row and N, and the rest of the combination is the originals' bytes. -/
theorem crossInstanceAgreement : Obligations.CrossInstanceAgreement := by
  intro s1 s2 t1 t2 u1 u2 hi1 hi2 hr1 hr2 hn ht hrow horig he1 he2
  obtain ⟨b1, hb1, hsum1⟩ := encodeWith_after_init config_legal hi1 hr1 he1
  obtain ⟨b2, hb2, hsum2⟩ := encodeWith_after_init config_legal hi2 hr2 he2
  obtain ⟨hargN, hS⟩ := State.argN_initS_congr hn ht
  refine ⟨b1, b2, hb1, hb2, ?_⟩
  rw [hsum1, hsum2, State.symbol, State.symbol, ← hS, ← hargN, ← hrow]
  refine List.map_congr_left fun i hi => congrArg xorAll (List.map_congr_left fun c hc => ?_)
  rw [origByteD, origByteD, horig c i (List.mem_range.mp hc) (List.mem_range.mp hi)]

/-- The combination is additive in the originals (R222). -/
theorem combinationByte_xor {cfg : Config} {m mA mB : Memory} {w wA wB : Window} {r n : Word} {i : Nat}
    (h : ∀ c, c < n.toNat → origByteD m w c i = origByteD mA wA c i ^^^ origByteD mB wB c i) :
    combinationByte cfg m w r n i = combinationByte cfg mA wA r n i ^^^ combinationByte cfg mB wB r n i := by
  rw [combinationByte, combinationByte, combinationByte, ← xorAll_map_xor]
  refine congrArg xorAll (List.map_congr_left fun c hc => ?_)
  rw [h c (List.mem_range.mp hc), gfMul_xor_right]

/-- Settles O30. -/
theorem encodeLinear : Obligations.EncodeLinear := by
  intro sA sB sC tA tB tC uA uB uC hiA hiB hiC hrA hrB hrC hnA hnB htA htB hrowA hrowB horig heA heB heC
  obtain ⟨bA, hbA, hsumA⟩ := encodeWith_after_init config_legal hiA hrA heA
  obtain ⟨bB, hbB, hsumB⟩ := encodeWith_after_init config_legal hiB hrB heB
  obtain ⟨bC, hbC, hsumC⟩ := encodeWith_after_init config_legal hiC hrC heC
  obtain ⟨hargA, hSA⟩ := State.argN_initS_congr hnA htA
  obtain ⟨hargB, hSB⟩ := State.argN_initS_congr hnB htB
  refine ⟨bA, bB, bC, hbA, hbB, hbC, ?_⟩
  rw [hsumA, hsumB, hsumC, State.symbol, State.symbol, State.symbol, hSA, hSB, hargA, hargB, hrowA, hrowB, List.zipWith_map,
    List.zipWith_self]
  exact List.map_congr_left fun i hi =>
    combinationByte_xor fun c hc => horig c i hc (List.mem_range.mp hi)

/-- The combination of all-zero originals is zero (R223). -/
theorem combinationByte_of_zero {cfg : Config} {m : Memory} {w : Window} {r n : Word} {i : Nat}
    (h : ∀ c, c < n.toNat → origByte m w c i = some 0) : combinationByte cfg m w r n i = 0 := by
  rw [combinationByte, ← xorAll_map_zero (List.range n.toNat)]
  refine congrArg xorAll (List.map_congr_left fun c hc => ?_)
  rw [origByteD, h c (List.mem_range.mp hc), Option.getD_some, gfMul_zero_right]

/-- Settles O31. -/
theorem zeroPreservation : Obligations.ZeroPreservation := by
  intro s t u hi hr hzero he
  obtain ⟨b, hb, hsum⟩ := encodeWith_after_init config_legal hi hr he
  refine ⟨b, hb, hsum.trans (List.eq_replicate_iff.mpr ⟨by simp [State.symbol], fun v hv => ?_⟩)⟩
  obtain ⟨i, hlt, rfl⟩ := List.mem_map.mp hv
  exact combinationByte_of_zero fun c hc => hzero c i hc (List.mem_range.mp hlt)

/-! ### The bytes after the final original -/

/-- A byte of `ORIG(c)` depends on the byte of host memory it is read from (R65). -/
theorem origByte_congr {m m' : Memory} {w : Window} {c i : Nat}
    (h : ∀ p, w.ptr[c]? = some p → i < w.len c → m'.read (p.toNat + i) = m.read (p.toNat + i)) :
    origByte m' w c i = origByte m w c i := by
  unfold origByte
  by_cases hi : i < w.len c
  · cases hp : w.ptr[c]? with
    | none => rfl
    | some p => simp only [hi, if_true, Option.bind_some, h p hp hi]
  · rw [if_neg hi, if_neg hi]

/-- The columns that the registers hold after a commit are no longer than those committed, on a block of any capacity (R190). -/
theorem State.len_window_commit_le {s : State} {w : Window} {t : LaneTable} {b : Buffers} (hn : w.n < 2 ^ 32) (c : Nat) :
    ((s.commit w t).window b).len c ≤ w.len c := by
  simp only [Window.len, State.window, State.commit_winN, State.commit_winS, State.commit_winF, BitVec.toNat_ofNat,
    Nat.mod_eq_of_lt hn]
  split
  · exact Nat.mod_le ..
  · exact Nat.mod_le ..

/-- Settles O33: the changed bytes are in no region that INIT or ENCODE reads. -/
theorem finalColumnTailIsolation : Obligations.FinalColumnTailIsolation := by
  intro cfg s t u m hi hr he htail
  have htable (c j : Nat) (hc : c < s.operandN) (hj : j < 8) :
      m.read (s.operandPtrtab + 8 * c + j) = s.hmem.read (s.operandPtrtab + 8 * c + j) := by
    by_contra hne
    obtain ⟨-, hout, -⟩ := htail _ hne
    omega
  have horig (c i : Nat) (hc : c < s.operandN) (hlen : i < s.initWindow.len c) (p : Addr)
      (hp : s.initWindow.ptr[c]? = some p) : m.read (p.toNat + i) = s.hmem.read (p.toNat + i) := by
    obtain ⟨q, hq, hqv⟩ := s.initWindow_ptr hc
    obtain rfl : q = p := Option.some.inj (hq.symm.trans hp)
    by_contra hne
    obtain ⟨-, -, hout⟩ := htail _ hne
    exact hout c hc (by omega)
  refine ⟨initWith_congr hi (fun _ => setEncoderInput_congr fun c j hc _ => htable c j hc) fun _ =>
    buildLaneSums_congr cfg fun c i hc hlen => origByte_congr fun p hp _ => horig c i hc hlen p hp, ?_⟩
  obtain ⟨⟨hn, -, -⟩, -, -, lane, -, rfl⟩ := initWith_ready hi hr
  refine encodeWith_congr rfl he fun j i _ hlen => origByte_congr fun p hp _ => ?_
  have hcol : drawnColumn cfg s.argRow (BitVec.ofNat 32 s.operandN) j < s.operandN := by
    rw [s.ofNat_operandN]
    exact Nat.mod_lt _ hn
  exact horig _ i hcol (hlen.trans_le (State.len_window_commit_le s.argN.isLt _)) p hp

/-! ### One original -/

/-- With one original every draw is column 0 (R148). -/
theorem drawnColumn_one (cfg : Config) (r : Word) (j : Nat) : drawnColumn cfg r 1 j = 0 := Nat.mod_one _

/-- With one original there is one pair, so that its coefficient has both overlay terms (R218, R226). -/
theorem coef_single (cfg : Config) (r : Word) :
    coef cfg r 1 0 = 1 ^^^ opcodePoly (cfg.rowOp 0 r) 0 (cfg.cx 0) ^^^
      gfMul (cfg.rx r) (1 ^^^ opcodePoly (cfg.rowOp 0 r) 3 (cfg.cx 0)) := by
  have hdraws (side : Nat) : oddDraws cfg r 1 side 0 = 1 := by
    simp only [oddDraws, drawnColumn_one]
    rfl
  rw [coef, hdraws, hdraws]
  rfl

/-- Settles O34: the closed form of R218 with one original. -/
theorem singleOriginalIsScaled : Obligations.SingleOriginalIsScaled := by
  intro s b hi hb hn hread hcur
  have hdrawn : s.DrawnReadable config b := fun j _ => by
    rw [hn, drawnColumn_one]
    exact hread
  obtain ⟨t, b', ht, hb', -, hsum⟩ := symbolClosedForm s b hi hb hdrawn
  refine ⟨t, b', ht, hb', fun i hlt => (hsum hcur i hlt).trans ?_⟩
  rw [hn, ← coef_single]
  exact congrArg some (xorAll_singleton _)

/-! ### The mixing as row opcodes -/

/-- Row opcodes executed one after the other, each with its lane, answer SUM and PROD of the mixing over those lanes, and leave the
last lane in the engine (R97, R215). `f` is the step that goes on from a next state. -/
theorem foldl_execRowop {cfg : Config} {r : Word}
    {f : Host.Outcome State Fault Refusal → Fin 8 → Host.Outcome State Fault Refusal}
    (hf : ∀ u l, f (.next u) l = execRowop (cfg.rowOp l r) { u with engine := { u.engine with lane := l } })
    (ls : List (Fin 8)) {s : State} {b : Buffers} (hb : s.bufs = some b) :
    ls.foldl f (.next s) =
      .next
        { s with
          bufs := some
            { b with
              sum := (ls.foldl (fun a l => rowopApply (b.lane.get l) (cfg.rowOp l r) s.winS.toNat a) (b.sum, b.prod)).1
              prod := (ls.foldl (fun a l => rowopApply (b.lane.get l) (cfg.rowOp l r) s.winS.toNat a) (b.sum, b.prod)).2 }
          engine := { s.engine with lane := ls.getLastD s.engine.lane } } := by
  induction ls generalizing s b with
  | nil => rw [List.foldl_nil, List.foldl_nil, List.getLastD_nil, ← hb]
  | cons l ls ih =>
    rw [List.foldl_cons, hf, execRowop_of_some (s := { s with engine := { s.engine with lane := l } }) _ hb, ih rfl,
      List.getLastD_cons]
    rfl

/-- Settles O42: the lanes are those of `mix`, the last of them 7. -/
theorem mixingIsEightRowops : Obligations.MixingIsEightRowops := fun _ _ r hb =>
  foldl_execRowop (cfg := config) (r := r) (fun _ _ => rfl) (List.finRange 8) hb

end Sys2Proof.Machine

/-! PROOFS. The statements about the lifecycle (45_lifecycle.md): reading a register, FREE, ILLEGAL, and the transitions over
(READY, SYMVALID). -/

namespace Sys2Proof.Machine

/-! ### Reading a register -/

/-- A word read at a register's offset returns the register's value and changes nothing of the block (R242). -/
theorem step_readReg {s : State} {r : Reg} {q : List HostMove} (h : s.NextMove (hostR r) q) :
    step s = .next { s with queue := q, readData := s.readReg r } := by
  obtain ⟨ha, hb⟩ := r.offset_aligned
  rw [step_read h, hostRead_bank config _ ha hb, regAt_offset]
  rfl

/-- Settles O45: the pairs of the first clause are the offset and the value of each register but STATUS, whose value is the
number of `State.status_toNat`. -/
theorem registerReadsReturnValue : Obligations.RegisterReadsReturnValue := by
  refine ⟨fun s q off v hmem h => ?_, fun s q h => ⟨s.status, step_readReg (r := .status) h, ?_⟩,
    fun s r q => step_readReg, fun s t size off q h ht => ?_⟩
  · have htable : (off, v) ∈ (Reg.all.erase .status).map fun r => (r.offset, s.readReg r) := hmem
    obtain ⟨r, -, hr⟩ := List.mem_map.mp htable
    cases hr
    exact step_readReg h
  · rw [State.status_toNat]
    cases s.result with
    | success | invalidInput | outOfMemory => rfl
  · rw [step_read h] at ht
    obtain ⟨-, v, k, hr⟩ | ⟨-, hr⟩ := hostRead_cases config size off { s with queue := q }
    · cases hr.symm.trans ht
      exact ⟨v, k, rfl⟩
    · cases hr.symm.trans ht

/-! ### READY -/

@[simp] theorem State.failed_ready (s : State) (r : Result) : (s.failed r).ready = false := rfl

theorem State.ready_eq_false_iff {s : State} : s.ready = false ↔ s.bufs = none :=
  Option.isSome_eq_false_iff.trans Option.isNone_iff_eq_none

/-- A block that is not READY has no valid symbol (R30). -/
theorem State.Inv.symValid_of_not_ready {cfg : Config} {s : State} (hi : s.Inv cfg) (hr : s.ready = false) :
    s.symValid = false := by
  obtain ⟨-, -, -, hvalid⟩ := hi.idle (State.ready_eq_false_iff.mp hr)
  exact hvalid

/-- A block that is not READY has nothing to release: releasing it changes only RESULT (R30, R240). -/
theorem State.Inv.failed_of_not_ready {cfg : Config} {s : State} (hi : s.Inv cfg) (hr : s.ready = false) (r : Result) :
    s.failed r = s.setResult r := by
  have hbufs := State.ready_eq_false_iff.mp hr
  obtain ⟨hn, hs, hf, hvalid⟩ := hi.idle hbufs
  obtain ⟨hrow, hbytes, hptr⟩ := hi.no_symbol hvalid
  simp only [State.failed, State.setResult, hbufs, hn, hs, hf, hvalid, hrow, hbytes, hptr]

/-- INIT leaves no valid symbol, and a READY block exactly where it succeeds (R180, R265). -/
theorem initWith_flags {cfg : Config} {s t : State} (h : initWith cfg s = .next t) :
    t.symValid = false ∧ (t.ready = true ↔ t.result = .success) := by
  obtain rfl | rfl | ⟨S, F, ptr, lane, -, -, -, -, rfl⟩ := initWith_next h
  · simp
  · simp
  · simp

/-- ENCODE on a READY block that answers publishes a symbol (R217). -/
theorem encodeWith_flags_of_ready {cfg : Config} {s t : State} (h : encodeWith cfg s = .next t) (hr : s.ready = true) :
    t.ready = true ∧ t.symValid = true ∧ t.result = .success := by
  obtain ⟨hb, -⟩ | ⟨b, o, -, -, rfl⟩ := encodeWith_next h
  · cases hr.symm.trans (State.ready_eq_false_iff.mpr hb)
  · exact ⟨rfl, rfl, rfl⟩

/-! ### The commands of the lifecycle -/

/-- Settles O49: the flags that each command leaves, and R30 for the state that does not occur. -/
theorem lifecycleTransitions : Obligations.LifecycleTransitions := by
  intro s t hi
  refine ⟨initWith_flags, encodeWith_flags_of_ready, fun h hr => ?_, fun h => ?_, fun w h => ?_, ?_⟩
  · cases (encodeWith_of_none config (State.ready_eq_false_iff.mp hr)).symm.trans h
    exact ⟨hr, hi.symValid_of_not_ready hr, rfl⟩
  · cases h
    exact ⟨rfl, rfl, rfl⟩
  · cases h
    exact ⟨rfl, rfl⟩
  · rintro ⟨hr, hv⟩
    cases hv.symm.trans (hi.symValid_of_not_ready hr)

/-- Settles O38: FREE releases and records Success, and a released block that holds Success is left as it is. -/
theorem freeReleases : Obligations.FreeReleases := by
  refine fun s => ⟨exec_free s, fun t h => ?_, fun hi hr => ?_⟩
  · cases h
    exact ⟨rfl, rfl⟩
  · rw [exec_free, hi.failed_of_not_ready hr]
    rfl

/-- Settles O39. -/
theorem illegalOnlyRecords : Obligations.IllegalOnlyRecords := exec_illegal

end Sys2Proof.Machine

/-! PROOFS. The statements about exceptions (60_exceptions.md): an idle block, an INIT that fails, and where a command can stop.
A stop of a command is traced to the byte it names, or to the region that would run past 2^64. -/

namespace Sys2Proof.Machine

/-- Settles O7: every one of the n steps finds nothing to do. -/
theorem idleBlockHoldsState : Obligations.IdleBlockHoldsState := by
  intro s n hr hq
  induction n with
  | zero => rfl
  | succ n ih => exact (run_succ_of_next core n (step_idle hr hq)).trans ih

/-- Settles O21: the flags that INIT leaves where it succeeds, and the released block, which is not READY, where it does not. -/
theorem initAllOrNothing : Obligations.InitAllOrNothing := by
  intro s t h
  obtain ⟨hvalid, hready⟩ := initWith_flags h
  by_cases hr : t.result = .success
  · exact .inl ⟨hr, hready.mpr hr, hvalid⟩
  · have hnot : t.ready = false := Bool.eq_false_iff.mpr (hr ∘ hready.mp)
    exact .inr ⟨hr, initWith_next_of_ne_success h hr, encodeNotReady t hnot⟩

/-! ### Stops of a computation -/

/-- The stop is a fault that names a byte of host memory that cannot be read (R73). -/
def Stop.IsUnreadable (e : Stop) (m : Memory) : Prop := ∃ a, e = .fault (.unreadable a) ∧ m.read a = none

theorem except_map_eq_error {α β : Type} {f : α → β} {x : Except Stop α} {e : Stop} (h : x.map f = .error e) :
    x = .error e := by
  cases x with
  | ok a => cases h
  | error e' => cases h; rfl

theorem Stop.toOutcome_injective {e e' : Stop} (h : e.toOutcome = e'.toOutcome) : e = e' := by
  cases e <;> cases e' <;> cases h <;> rfl

/-- A computation followed by a continuation stops where one of them stops. -/
theorem continueWith_stop {α : Type} {x : Except Stop α} {k : α → Host.Outcome State Fault Refusal} {e : Stop}
    (h : continueWith x k = e.toOutcome) : x = .error e ∨ ∃ v, x = .ok v ∧ k v = e.toOutcome := by
  cases x with
  | ok v => exact .inr ⟨v, rfl, h⟩
  | error e' => exact .inl (congrArg _ (Stop.toOutcome_injective h))

/-- The scan stops only at a byte of the table that cannot be read (R73, R184). -/
theorem scanPointers_error {m : Memory} {tab c n : Nat} {e : Stop} (h : scanPointers m tab c n = .error e) :
    e.IsUnreadable m := by
  induction n generalizing c with
  | zero => cases h
  | succ n ih =>
    rw [scanPointers] at h
    split at h
    · next hentry =>
      cases h
      obtain ⟨x, -, -, hx, he⟩ := memRead_error (except_map_eq_error hentry)
      exact ⟨x, he, hx⟩
    · split at h
      · cases h
      · exact ih (except_map_eq_error h)

/-- Phase 2 stops in the scan, or on a table that would run past 2^64 (R72, R184). -/
theorem setEncoderInput_error {m : Memory} {tab N : Nat} {e : Stop} (h : setEncoderInput m tab N = .error e) :
    e.IsUnreadable m ∨ e = .refuse .pastAddressSpace ∧ addressTop < tab + 8 * N := by
  rcases Nat.lt_or_ge addressTop (tab + 8 * N) with hpast | hspace
  · cases (setEncoderInput_of_past m hpast).symm.trans h
    exact .inr ⟨rfl, hpast⟩
  · exact .inl (scanPointers_error ((setEncoderInput_of_space m hspace).symm.trans h))

/-- An original that has a pointer stops a command only at a byte that cannot be read (R73). -/
theorem readOriginal_error_of_lt {m : Memory} {w : Window} {c : Nat} {e : Stop} (hc : c < w.ptr.length)
    (h : readOriginal m w c = .error e) : e.IsUnreadable m := by
  obtain ⟨hno, -⟩ | ⟨x, hx, he⟩ := readOriginal_error h
  · exact absurd hc (Nat.not_lt.mpr hno)
  · exact ⟨x, he, hx⟩

/-- Phase 5 stops only at a byte of an original that cannot be read (R73, R188). -/
theorem addColumns_error {cfg : Config} {m : Memory} {w : Window} {n : Nat} {e : Stop} (hn : n ≤ w.ptr.length)
    (h : addColumns cfg m w n = .error e) : e.IsUnreadable m := by
  induction n with
  | zero => cases h
  | succ n ih =>
    rw [addColumns] at h
    split at h
    · next hbefore => cases h; exact ih (Nat.le_of_succ_le hn) hbefore
    · exact readOriginal_error_of_lt hn (except_map_eq_error h)

/-- Phases 4 and 5 stop at an original, or on a Window that is not in the address space (R72, R188). -/
theorem buildLaneSums_error {cfg : Config} {m : Memory} {w : Window} {e : Stop} (hw : w.n ≤ w.ptr.length)
    (h : buildLaneSums cfg m w = .error e) :
    e.IsUnreadable m ∨ e = .refuse .pastAddressSpace ∧ w.inAddressSpace = false := by
  unfold buildLaneSums at h
  split at h
  · exact .inl (addColumns_error hw h)
  · next hspace => cases h; exact .inr ⟨rfl, Bool.eq_false_iff.mpr hspace⟩

/-- A pair stops only at a byte of an original that cannot be read (R73, R213). -/
theorem overlayPair_error {cfg : Config} {m : Memory} {w : Window} {i : Nat} {o : Overlay} {e : Stop} (hn : 0 < w.n)
    (hw : w.n ≤ w.ptr.length) (h : overlayPair cfg m w i o = .error e) : e.IsUnreadable m := by
  have hcol (x : Word) : columnOf x w.n < w.ptr.length := (Nat.mod_lt _ hn).trans_le hw
  unfold overlayPair at h
  simp only [Prng.draw] at h
  split at h
  · cases h
  · next h1 => cases h; exact readOriginal_error_of_lt (hcol _) h1
  · next h2 => cases h; exact readOriginal_error_of_lt (hcol _) h2

theorem overlayPairs_error {cfg : Config} {m : Memory} {w : Window} {o : Overlay} {n : Nat} {e : Stop} (hn : 0 < w.n)
    (hw : w.n ≤ w.ptr.length) (h : overlayPairs cfg m w o n = .error e) : e.IsUnreadable m := by
  induction n with
  | zero => cases h
  | succ n ih =>
    rw [overlayPairs] at h
    cases hq : overlayPairs cfg m w o n with
    | error e' => rw [hq] at h; cases h; exact ih hq
    | ok q => rw [hq] at h; exact overlayPair_error hn hw h

/-! ### Stops of a command -/

/-- INIT's Window that is not in the address space has a region that would run past 2^64 (R72). -/
theorem State.exists_past_of_initWindow {s : State} (h : s.initWindow.inAddressSpace = false) :
    ∃ c, c < s.operandN ∧ addressTop < entryValue s.hmem s.operandPtrtab c + s.initWindow.len c := by
  obtain ⟨c, hc, hregion⟩ := List.all_eq_false.mp h
  have hc : c < s.operandN := List.mem_range.mp hc
  obtain ⟨p, hp, hpv⟩ := s.initWindow_ptr hc
  rw [List.getD_eq_getElem?_getD, hp, Option.getD_some, hpv] at hregion
  exact ⟨c, hc, Nat.not_le.mp (hregion ∘ decide_eq_true)⟩

/-- The table or a region of an original that INIT is given would run past 2^64 (R72). -/
def State.RunsPast (s : State) : Prop :=
  addressTop < s.operandPtrtab + 8 * s.operandN ∨
    ∃ c, c < s.operandN ∧ addressTop < entryValue s.hmem s.operandPtrtab c + s.initWindow.len c

/-- INIT on valid parameters stops in phase 2, or on a valid table in phases 4 and 5. -/
theorem initWith_stop_phase {cfg : Config} {s : State} {e : Stop} (h : initWith cfg s = e.toOutcome) :
    s.ParametersValid ∧
      (setEncoderInput s.hmem s.operandPtrtab s.operandN = .error e ∨ buildLaneSums cfg s.hmem s.initWindow = .error e) := by
  have hnext (t : State) : initWith cfg s ≠ .next t := fun ht => e.toOutcome_ne_next t (h.symm.trans ht)
  have hp : s.ParametersValid := by_contra fun hbad => hnext _ (initWith_of_not_valid cfg hbad)
  refine ⟨hp, ?_⟩
  cases htab : setEncoderInput s.hmem s.operandPtrtab s.operandN with
  | error e' =>
    have he : e' = e := Stop.toOutcome_injective ((initWith_of_table_error cfg hp htab).symm.trans h)
    exact .inl (congrArg _ he)
  | ok o =>
    cases o with
    | none => exact absurd (initWith_of_table_null cfg hp htab) (hnext _)
    | some ptr =>
      rw [initWith_of_table cfg hp (State.TableValid.of_setEncoderInput htab)] at h
      split at h
      · obtain hsums | ⟨t, -, ht⟩ := continueWith_stop h
        · exact .inr hsums
        · exact absurd ht.symm (e.toOutcome_ne_next _)
      · exact absurd h.symm (e.toOutcome_ne_next _)

/-- INIT stops only at a byte that cannot be read, or on valid parameters with a region past 2^64 (R72, R73). -/
theorem initWith_stop {cfg : Config} {s : State} {e : Stop} (h : initWith cfg s = e.toOutcome) :
    e.IsUnreadable s.hmem ∨ e = .refuse .pastAddressSpace ∧ s.ParametersValid ∧ s.RunsPast := by
  obtain ⟨hp, htab | hsums⟩ := initWith_stop_phase h
  · exact (setEncoderInput_error htab).imp_right fun ⟨he, hpast⟩ => ⟨he, hp, .inl hpast⟩
  · exact (buildLaneSums_error s.initWindow_ptr_length.ge hsums).imp_right fun ⟨he, hspace⟩ =>
      ⟨he, hp, .inr (State.exists_past_of_initWindow hspace)⟩

/-- ENCODE stops only at a byte that cannot be read: its Window has a pointer per column and lies in the address space
(R26, R72, R73). -/
theorem encodeWith_stop {cfg : Config} {s : State} {e : Stop} (hi : s.Inv cfg) (h : encodeWith cfg s = e.toOutcome) :
    e.IsUnreadable s.hmem := by
  cases hb : s.bufs with
  | none => exact absurd ((encodeWith_of_none cfg hb).symm.trans h).symm (e.toOutcome_ne_next _)
  | some b =>
    have hok := hi.buffers b hb
    rw [encodeWith_of_some cfg hb] at h
    obtain hov | ⟨o, -, ho⟩ := continueWith_stop h
    · rw [overlay, if_pos hok.regions] at hov
      exact overlayPairs_error (w := s.window b) hok.n_pos hok.ptr_length.ge hov
    · exact absurd ho.symm (e.toOutcome_ne_next _)

/-- Where an instruction can stop: INIT and ENCODE at a byte that cannot be read, and INIT past 2^64 (R72, R73). -/
theorem exec_stop {i : Instr} {s : State} {e : Stop} (hi : s.Inv config) (h : exec i s = e.toOutcome) :
    (i = .init ∨ i = .encode) ∧ e.IsUnreadable s.hmem ∨
      i = .init ∧ e = .refuse .pastAddressSpace ∧ s.ParametersValid ∧ s.RunsPast := by
  cases i with
  | init => exact (initWith_stop h).imp (⟨.inl rfl, ·⟩) (⟨rfl, ·⟩)
  | encode => exact .inl ⟨.inr rfl, encodeWith_stop hi h⟩
  | free => exact absurd h.symm (e.toOutcome_ne_next _)
  | illegal w => exact absurd h.symm (e.toOutcome_ne_next _)
  | rowop op => exact absurd h.symm (e.toOutcome_ne_next _)

/-- Settles O35: a fault and a refusal are the two kinds of stop of `exec_stop`. -/
theorem commandsStopOnlyOnHostMemory : Obligations.CommandsStopOnlyOnHostMemory := by
  refine fun i s hi => ⟨fun f h => ?_, fun r h => ?_⟩
  · obtain ⟨hcmd, a, he, ha⟩ | ⟨-, he, -⟩ := exec_stop (e := .fault f) hi h
    · exact ⟨hcmd, a, Stop.fault.inj he, ha⟩
    · cases he
  · obtain ⟨-, a, he, -⟩ | ⟨hinit, he, hp, hpast⟩ := exec_stop (e := .refuse r) hi h
    · cases he
    · exact ⟨hinit, Stop.refuse.inj he, hp, hpast⟩

end Sys2Proof.Machine

/-! PROOFS. The statement about reset (70_reset_and_hazards.md): what the host's reset makes of the block, from any state. -/

namespace Sys2Proof.Machine

/-! ### The block after a reset -/

@[simp] theorem State.resetBlock_hmem (s : State) : s.resetBlock.hmem = s.hmem := rfl
@[simp] theorem State.resetBlock_ready (s : State) : s.resetBlock.ready = false := rfl

/-- All that a reset block holds besides what is the host's is the value of R34 (R300). -/
theorem State.resetBlock_eq_reset (s : State) :
    { s.resetBlock with hmem := [], queue := [], readData := 0, freeIx := 0 } = State.reset := rfl

/-- Resetting reads no host memory: another memory is only carried along (R301). -/
theorem State.resetBlock_with_hmem (s : State) (m : Memory) :
    State.resetBlock { s with hmem := m } = { s.resetBlock with hmem := m } := rfl

/-- A reset block has nothing to release, and its RESULT is Success already (R34, R240). -/
theorem State.failed_resetBlock (s : State) : s.resetBlock.failed .success = s.resetBlock := rfl

/-- A reset is no command: the step takes it from the queue and resets the block (R300). -/
theorem step_reset {s : State} {q : List HostMove} (h : s.NextMove .reset q) :
    step s = .next (State.resetBlock { s with queue := q }) :=
  step_move h rfl

/-- Settles O9: the step is `State.resetBlock`, with any host memory in place of `s.hmem` too; ENCODE then meets a block that is
not READY (R211), and FREE one with nothing to release. -/
theorem resetFromAnyState : Obligations.ResetFromAnyState := by
  intro s q h
  refine ⟨_, step_reset h, State.resetBlock_hmem _, State.resetBlock_eq_reset _, fun m => ?_, ?_, ?_⟩
  · have hm : State.NextMove { s with hmem := m } .reset q := h
    rw [step_reset hm]
    exact congrArg _ (State.resetBlock_with_hmem { s with queue := q } m)
  · exact encodeNotReady _ (State.resetBlock_ready _)
  · rw [exec_free, State.failed_resetBlock]

end Sys2Proof.Machine
